-- ==== Sys2Proof/Word.lean ====
section
/-! DEFINITION. The word types of the core (00_scope.md R6, R7): every quantity is an unsigned bit pattern. -/

namespace Sys2Proof

/-- One byte of a key, an IV or a message. -/
abbrev Byte := BitVec 8

/-- Half of a 31-bit cell, H(c) or L(c) (R8): the two halves share bit 15. -/
abbrev Half := BitVec 16

/-- One LFSR cell, `CELL_BITS` = 31 (R6). -/
abbrev Cell := BitVec 31

/-- One 32-bit word, `WORD_BITS` = 32 (R6): a register of the map, a keystream word, a tag. -/
abbrev Word := BitVec 32

/-- A 64-bit counter, read by the host as two words (R23, R26, R52). -/
abbrev Count := BitVec 64

/-- A byte offset into the 64 KiB register window (R50). -/
abbrev Offset := BitVec 16

/-- The modulus p = 2^31 - 1 of the field register (R100). -/
def prime : Nat := 2 ^ 31 - 1

end Sys2Proof
end

