-- ==== Sys2Proof/Config.lean ====
section
/-! DEFINITION. The implementation parameters of R6, as one record that `State` carries and no step writes,
so that a statement over every state is a statement over every parameter setting; and the one free value. -/

namespace Sys2Proof

/-- `ZERO_REP` (R6, R102; 90_conflicts.md C1): how a cell whose residue is 0 is stored. -/
inductive ZeroRep where
  /-- the bit pattern 0 -/
  | zero
  /-- the bit pattern 0x7FFFFFFF -/
  | allOnes
  deriving DecidableEq, Repr

/-- The parameters an implementation fixes (R6; 93_implementation_defined.md A1, A3, A4, A5).
`LAT` (A2) may differ for each command, so it is not one number here: see `State.latencies`. -/
structure Config where
  /-- `ZERO_REP`, OPEN in the spec. -/
  zeroRep       : ZeroRep
  /-- `CAPACITY_WORDS`, legal range 1..4096: the most words of one GEN, and the size of OUTBUF. -/
  capacityWords : Nat
  /-- `MSGBUF_WORDS`, legal range 1..64: the size of the message staging buffer. -/
  msgbufWords   : Nat
  /-- `BASE`, 64 KiB aligned: the platform's address of offset 0 (R50, R60). -/
  base          : Nat
  deriving DecidableEq, Repr

/-- The defaults of R6. `BASE` has none there; 0 is a DESIGN CHOICE (log entry 2), which only
`offsetOf` and `addressOf` read. `ZERO` is the spec's own simulator default. -/
def Config.default : Config :=
  { zeroRep := .zero, capacityWords := 2000, msgbufWords := 64, base := 0 }

/-- The legal ranges of R6. -/
def Config.ok (c : Config) : Bool :=
  decide (1 ≤ c.capacityWords) && decide (c.capacityWords ≤ 4096)
    && decide (1 ≤ c.msgbufWords) && decide (c.msgbufWords ≤ 64)
    && decide (c.base % 65536 = 0)

/-- The platform address of a byte offset of the window (R50). -/
def Config.addressOf (c : Config) (off : Offset) : Nat :=
  c.base + off.toNat

/-- The offset a platform address selects; `none` outside the window, where the core is not reached (R50). -/
def Config.offsetOf (c : Config) (addr : Nat) : Option Offset :=
  if c.base ≤ addr ∧ addr < c.base + 65536 then some (BitVec.ofNat 16 (addr - c.base)) else none

/-- FREE VALUE (log entry 3): what `KW(j)` reads when the buffer does not hold `KS(j)`. R161 defines `KW(j)`
only for KSIDX - 2 ≤ j ≤ KSIDX - 1. No reachable state reads it. The arguments are j and KSIDX. -/
opaque Config.unbufferedWord : Nat → Nat → Word

end Sys2Proof
end

