-- ==== Sys2Proof/Syntax.lean ====
section
/-! DEFINITION. The instructions: one constructor per row of spec/opcode_table.json, and the two forms in
which the host presents them, a 32-bit command word (R80) or a bus transaction (R81, R180). -/

namespace Sys2Proof

/-- The seven commands (R83), the catch-all for every other command word (R84), and the two bus
transactions (R183, R184). -/
inductive Instr where
  /-- NOP (R144), format Z. -/
  | nop
  /-- INIT (R145), format K: KLEN and IVLEN. -/
  | init (klen ivlen : Byte)
  /-- GEN (R146), format N: the number of keystream words. -/
  | gen (n : BitVec 28)
  /-- DESTROY (R149), format Z. -/
  | destroy
  /-- MACINIT (R165), format K: KLEN and IVLEN. -/
  | macinit (klen ivlen : Byte)
  /-- MACUPD (R166), format N: the number of message bits. -/
  | macupd (n : BitVec 28)
  /-- MACFINAL (R167), format Z. -/
  | macfinal
  /-- ILLEGAL (R84): a command word that is no row above. -/
  | illegal (w : Word)
  /-- RD (R183): a register read at a byte offset, of `size` bytes. -/
  | rd (off : Offset) (size : Nat)
  /-- WR (R184): a register write at a byte offset, of `size` bytes, with its data word. -/
  | wr (off : Offset) (size : Nat) (data : Word)
  deriving DecidableEq, Repr

/-- One transaction as the register-bus port carries it (R180): the 17-bit descriptor of R81 (bit 16 = write,
bits 15..0 = byte offset), the size in bytes, and the write data (0 and not looked at on a read). -/
structure BusTxn where
  desc  : BitVec 17
  size  : Nat
  wdata : Word
  deriving DecidableEq, Repr

/-- What a decoder is given: a command word taken from PENDING, or a transaction taken from the port. -/
inductive HostWord where
  | cmd (w : Word)
  | bus (t : BusTxn)
  deriving DecidableEq, Repr

end Sys2Proof
end

