-- ==== Sys2Proof/Machine/State.lean ====
section
/-! DEFINITION. The state of the core (10_state.md), plain data; its reset (R240); the reasons a step can stop. -/

namespace Sys2Proof.Machine

/-- The LFSR, 16 cells S[0]..S[15] of 31 bits (R20). S[0] is the oldest. -/
structure Lfsr where
  s0 : Cell
  s1 : Cell
  s2 : Cell
  s3 : Cell
  s4 : Cell
  s5 : Cell
  s6 : Cell
  s7 : Cell
  s8 : Cell
  s9 : Cell
  s10 : Cell
  s11 : Cell
  s12 : Cell
  s13 : Cell
  s14 : Cell
  s15 : Cell
  deriving DecidableEq, Repr

/-- All sixteen cells 0 (R240). -/
def Lfsr.zero : Lfsr := ⟨0, 0, 0, 0, 0, 0, 0, 0, 0, 0, 0, 0, 0, 0, 0, 0⟩

/-- The source's CipherState: the cells, the memory words R1 and R2 (R22), the step counter KSIDX (R23). -/
structure Cipher where
  lfsr  : Lfsr
  r1    : Word
  r2    : Word
  ksidx : Count
  deriving DecidableEq, Repr

def Cipher.zero : Cipher := ⟨Lfsr.zero, 0, 0, 0⟩

/-- The generator with its sliding keystream buffer KBUF[0], KBUF[1] (R27). -/
structure Stream where
  cipher : Cipher
  kbuf0  : Word
  kbuf1  : Word
  deriving DecidableEq, Repr

def Stream.zero : Stream := ⟨Cipher.zero, 0, 0⟩

/-- Four 32-bit staging registers: KEY0..KEY3 (R28) or IV0..IV3 (R29). -/
structure Quad where
  w0 : Word
  w1 : Word
  w2 : Word
  w3 : Word
  deriving DecidableEq, Repr

def Quad.zero : Quad := ⟨0, 0, 0, 0⟩

/-- The lifecycle state CTX (R24); codes 4..7 are never held. -/
inductive Ctx where
  /-- no context -/
  | uninit
  /-- a keystream context -/
  | ks
  /-- an authentication context -/
  | mac
  /-- an authentication context that is finalized -/
  | macdone
  deriving DecidableEq, Repr

/-- The error codes of STATUS.ERR (R200). -/
inductive Err where
  | ok
  | invalidKeyLength
  | invalidIvLength
  | uninitializedContext
  | capacityExceeded
  /-- code 5, never raised (R201) -/
  | allocationFailure
  | illegalCommand
  deriving DecidableEq, Repr

/-- PENDING when it is not "none" (R39): the accepted command word, and the MODEL's count of the steps that
are still to pass before the command completes (what is left of LAT, R244). -/
structure InFlight where
  word : Word
  left : Nat
  deriving DecidableEq, Repr

/-- The `resp` of a transaction (R180). -/
inductive Resp where
  | okay
  | error
  deriving DecidableEq, Repr

/-- What the port gave back for one transaction (R180). -/
inductive Reply where
  /-- RD: (rdata, resp) -/
  | read (rdata : Word) (resp : Resp)
  /-- WR: resp -/
  | wrote (resp : Resp)
  deriving DecidableEq, Repr

/-- What the outside presents to the core next: a bus transaction (R180), or the reset input asserted (R240). -/
inductive PortEvent where
  | txn (t : BusTxn)
  | rst
  deriving DecidableEq, Repr

/-- The machine. The first fields are the spec's; `cfg` and the last three are the MODEL's own
(log entries 2, 4, 5): the parameters, the outside's inputs still to come, and the replies given. -/
structure State where
  /-- the parameters of R6; no step writes them -/
  cfg       : Config
  /-- S[0..15], R1, R2, KSIDX, KBUF[0..1] (R20, R22, R23, R27) -/
  stream    : Stream
  /-- CTX (R24) -/
  ctx       : Ctx
  /-- the accumulator T (R25) -/
  t         : Word
  /-- MLEN (R26) -/
  mlen      : Count
  /-- KEY0..KEY3 (R28) -/
  key       : Quad
  /-- IV0..IV3 (R29) -/
  iv        : Quad
  /-- MSGBUF[0..MSGBUF_WORDS-1] (R30) -/
  msgbuf    : List Word
  /-- OUTBUF[0..CAPACITY_WORDS-1] (R31) -/
  outbuf    : List Word
  /-- WORDS_OUT (R32) -/
  wordsOut  : Word
  /-- TAG (R33) -/
  tag       : Word
  /-- STATUS.OVR (R34) -/
  ovr       : Bool
  /-- STATUS.ERR (R34, R200) -/
  err       : Err
  /-- PENDING (R39); STATUS.BUSY is 1 exactly when it is not none -/
  pending   : Option InFlight
  /-- MODEL: LAT of each command still to be accepted, in steps; 0 when the list is used up (R244) -/
  latencies : List Nat
  /-- MODEL: what the port is still to carry, the next first -/
  port      : List PortEvent
  /-- MODEL: what the port has given back, the latest first (R250) -/
  replies   : List Reply
  deriving DecidableEq, Repr

/-- Why the machine would stop with a fault. It has no constructor: no command and no transaction can hang
the core or stop it (93_implementation_defined.md: "No item is `stuck`"; "Every command word, every bus
transaction and every interleaving ... has exactly one outcome"). -/
inductive Fault where
  deriving DecidableEq, Repr

/-- Why the model would give a step no meaning. -/
inductive Refusal where
  /-- Raised by an arm of `exec` whose instruction has no meaning yet; no arm is left so. Safe. -/
  | notModelled (mnemonic : String)
  deriving DecidableEq, Repr

/-- The reset state of R240 under given parameters: every register 0, CTX UNINIT, PENDING none. -/
def State.resetOf (cfg : Config) : State :=
  { cfg
    stream    := Stream.zero
    ctx       := .uninit
    t         := 0
    mlen      := 0
    key       := Quad.zero
    iv        := Quad.zero
    msgbuf    := List.replicate cfg.msgbufWords 0
    outbuf    := List.replicate cfg.capacityWords 0
    wordsOut  := 0
    tag       := 0
    ovr       := false
    err       := .ok
    pending   := none
    latencies := []
    port      := []
    replies   := [] }

/-- The machine right after reset, under the defaults of R6, with nothing presented at its port. -/
def State.reset : State := State.resetOf Config.default

end Sys2Proof.Machine
end

