-- ==== Sys2Proof/Machine/Flags.lean ====
section
/-! DEFINITION. STATUS (R34), the core's only flags (R38), and the codes its fields show (R24, R200). -/

namespace Sys2Proof.Machine

/-- The numeric value of CTX (R24). -/
def Ctx.code : Ctx → BitVec 3
  | .uninit  => 0
  | .ks      => 1
  | .mac     => 2
  | .macdone => 3

/-- The numeric error code (R200). -/
def Err.code : Err → BitVec 4
  | .ok                   => 0
  | .invalidKeyLength     => 1
  | .invalidIvLength      => 2
  | .uninitializedContext => 3
  | .capacityExceeded     => 4
  | .allocationFailure    => 5
  | .illegalCommand       => 6

/-- BUSY (R39): 1 exactly when PENDING is not "none". -/
def State.busy (s : State) : Bool := s.pending.isSome

/-- STATUS as the host reads it (R34): reserved, ERR [11:8], reserved [7], STATE [6:4], reserved [3:2],
OVR [1], BUSY [0]. -/
def State.status (s : State) : Word :=
  0#20 ++ s.err.code ++ 0#1 ++ s.ctx.code ++ 0#2 ++ BitVec.ofBool s.ovr ++ BitVec.ofBool s.busy

end Sys2Proof.Machine
end

