-- ==== Sys2Proof/Machine/Operands.lean ====
section
/-! DEFINITION. Where an instruction finds its operands: key and IV bytes (R55), message bits (R162), and the
register a byte offset names (R51). -/

namespace Sys2Proof.Machine

/-- Word n of four staging registers. -/
def Quad.word (q : Quad) (n : Fin 4) : Word :=
  match n with
  | 0 => q.w0
  | 1 => q.w1
  | 2 => q.w2
  | 3 => q.w3

/-- Byte i of the sixteen bytes of four staging registers (R55): byte 4n is bits [31:24] of word n. -/
def Quad.byte (q : Quad) (i : Fin 16) : Byte :=
  (q.word ⟨i.val / 4, by omega⟩).extractLsb' (24 - 8 * (i.val % 4)) 8

/-- Four staging registers with word n replaced. -/
def Quad.write (q : Quad) (n : Fin 4) (v : Word) : Quad :=
  match n with
  | 0 => { q with w0 := v }
  | 1 => { q with w1 := v }
  | 2 => { q with w2 := v }
  | 3 => { q with w3 := v }

/-- MSGBIT(i) = MSGBUF[floor(i/32)][31 - (i mod 32)] (R162). -/
def msgBit (buf : List Word) (i : Nat) : Bool :=
  (buf.getD (i / 32) 0).getLsbD (31 - i % 32)

/-- The registers of the map (R51). -/
inductive Reg where
  | id
  | cmd
  | status
  | cap
  | wordsOut
  | ksidxLo
  | ksidxHi
  | mbcap
  | mlenLo
  | mlenHi
  | tag
  | key (n : Fin 4)
  | iv (n : Fin 4)
  | msgbuf (m : Nat)
  | outbuf (j : Nat)
  deriving DecidableEq, Repr

/-- The byte offset of a register (R51). -/
def Reg.offset : Reg → Nat
  | .id       => 0x0000
  | .cmd      => 0x0004
  | .status   => 0x0008
  | .cap      => 0x000C
  | .wordsOut => 0x0010
  | .ksidxLo  => 0x0014
  | .ksidxHi  => 0x0018
  | .mbcap    => 0x001C
  | .mlenLo   => 0x0020
  | .mlenHi   => 0x0024
  | .tag      => 0x0028
  | .key n    => 0x0030 + 4 * n.val
  | .iv n     => 0x0040 + 4 * n.val
  | .msgbuf m => 0x0100 + 4 * m
  | .outbuf j => 0x4000 + 4 * j

/-- The fixed registers, below the two buffers. -/
def fixedRegAt (a : Nat) : Option Reg :=
  match a with
  | 0x00 => some .id
  | 0x04 => some .cmd
  | 0x08 => some .status
  | 0x0C => some .cap
  | 0x10 => some .wordsOut
  | 0x14 => some .ksidxLo
  | 0x18 => some .ksidxHi
  | 0x1C => some .mbcap
  | 0x20 => some .mlenLo
  | 0x24 => some .mlenHi
  | 0x28 => some .tag
  | 0x30 => some (.key 0)
  | 0x34 => some (.key 1)
  | 0x38 => some (.key 2)
  | 0x3C => some (.key 3)
  | 0x40 => some (.iv 0)
  | 0x44 => some (.iv 1)
  | 0x48 => some (.iv 2)
  | 0x4C => some (.iv 3)
  | _ => none

/-- The register at a 4-byte aligned offset, `none` where R51 marks the offset reserved, MSGBUF[m] for
m ≥ MSGBUF_WORDS and OUTBUF[j] for j ≥ CAPACITY_WORDS among them (R182). -/
def regAt (cfg : Config) (off : Offset) : Option Reg :=
  let a := off.toNat
  if a < 0x0100 then fixedRegAt a
  else if a < 0x0200 then
    if (a - 0x0100) / 4 < cfg.msgbufWords then some (.msgbuf ((a - 0x0100) / 4)) else none
  else if 0x4000 ≤ a ∧ a < 0x8000 then
    if (a - 0x4000) / 4 < cfg.capacityWords then some (.outbuf ((a - 0x4000) / 4)) else none
  else none

/-- The width and alignment check of R181: a 32-bit transaction at a multiple of 4. -/
def aligned32 (off : Offset) (size : Nat) : Bool :=
  size == 4 && off.toNat % 4 == 0

/-- The register a transaction reaches: `none` for the two bus errors, R181 first and R182 after it. -/
def target (cfg : Config) (off : Offset) (size : Nat) : Option Reg :=
  if aligned32 off size then regAt cfg off else none

end Sys2Proof.Machine
end

