-- ==== Sys2Proof/Machine/Lfsr.lean ====
section
/-! DEFINITION. The field register (41_lfsr.md): arithmetic mod p = 2^31 - 1, key loading, feedback, advance. -/

namespace Sys2Proof.Machine

/-- S[i] (R9, R20). -/
def Lfsr.cell (l : Lfsr) (i : Fin 16) : Cell :=
  match i.val with
  | 0 => l.s0
  | 1 => l.s1
  | 2 => l.s2
  | 3 => l.s3
  | 4 => l.s4
  | 5 => l.s5
  | 6 => l.s6
  | 7 => l.s7
  | 8 => l.s8
  | 9 => l.s9
  | 10 => l.s10
  | 11 => l.s11
  | 12 => l.s12
  | 13 => l.s13
  | 14 => l.s14
  | _ => l.s15

/-- ADD31 (R101): the 32-bit sum with one end-around carry. -/
def add31 (a b : Cell) : Cell :=
  let c : Word := a.setWidth 32 + b.setWidth 32
  c.extractLsb' 0 31 + (c.extractLsb' 31 1).setWidth 31

/-- `c <<<31 k` (R8), which multiplies the residue by 2^k (R103). -/
def rot31 (c : Cell) (k : Nat) : Cell :=
  c.rotateLeft k

/-- The residue of a pattern, in [0, p-1]: the all-ones pattern is residue 0 (R100, R106 "maps 0x7FFFFFFF to 0"). -/
def residue (c : Cell) : Cell :=
  if c = BitVec.allOnes 31 then 0 else c

/-- REP(v) (R102): the stored pattern of a residue v. -/
def rep (z : ZeroRep) (v : Cell) : Cell :=
  if v = 0 then
    match z with
    | .zero    => 0
    | .allOnes => BitVec.allOnes 31
  else v

/-- The padding constants d_0..d_15 (R104). -/
def padConstants : List (BitVec 15) :=
  [0x44D7#15, 0x26BC#15, 0x626B#15, 0x135E#15, 0x5789#15, 0x35E2#15, 0x7135#15, 0x09AF#15,
   0x4D78#15, 0x2F13#15, 0x6BC4#15, 0x1AF1#15, 0x5E26#15, 0x3C4D#15, 0x789A#15, 0x47AC#15]

/-- d_i (R104). -/
def pad (i : Fin 16) : BitVec 15 :=
  padConstants.getD i.val 0

/-- One cell of KEYLOAD (R105): k_i ‖ d_i ‖ iv_i. -/
def loadedCell (k iv : Quad) (i : Fin 16) : Cell :=
  k.byte i ++ pad i ++ iv.byte i

/-- KEYLOAD(k, iv) (R105). -/
def keyLoad (k iv : Quad) : Lfsr :=
  { s0 := loadedCell k iv 0, s1 := loadedCell k iv 1, s2 := loadedCell k iv 2, s3 := loadedCell k iv 3
    s4 := loadedCell k iv 4, s5 := loadedCell k iv 5, s6 := loadedCell k iv 6, s7 := loadedCell k iv 7
    s8 := loadedCell k iv 8, s9 := loadedCell k iv 9, s10 := loadedCell k iv 10, s11 := loadedCell k iv 11
    s12 := loadedCell k iv 12, s13 := loadedCell k iv 13, s14 := loadedCell k iv 14, s15 := loadedCell k iv 15 }

/-- FEEDBACK() (R106), with the additions in the order R106 gives. -/
def feedback (l : Lfsr) : Cell :=
  residue
    (add31 (add31 (add31 (add31 (add31 l.s0 (rot31 l.s0 8)) (rot31 l.s4 20)) (rot31 l.s10 21)) (rot31 l.s13 17))
      (rot31 l.s15 15))

/-- SHIFT(x) (R107): every cell down one position, REP(x) into S[15]. -/
def shift (z : ZeroRep) (x : Cell) (l : Lfsr) : Lfsr :=
  { s0 := l.s1, s1 := l.s2, s2 := l.s3, s3 := l.s4, s4 := l.s5, s5 := l.s6, s6 := l.s7, s7 := l.s8
    s8 := l.s9, s9 := l.s10, s10 := l.s11, s11 := l.s12, s12 := l.s13, s13 := l.s14, s14 := l.s15
    s15 := rep z x }

/-- ADVANCE_INIT(u) (R108), u a 31-bit value. -/
def advanceInit (z : ZeroRep) (u : Cell) (l : Lfsr) : Lfsr :=
  shift z (residue (add31 (feedback l) u)) l

/-- ADVANCE_WORK() (R109). -/
def advanceWork (z : ZeroRep) (l : Lfsr) : Lfsr :=
  shift z (feedback l) l

end Sys2Proof.Machine
end

