-- ==== Sys2Proof/Machine/Generator.lean ====
section
/-! DEFINITION. The procedures that drive the LFSR and F: INITIALIZE and NEXTWORD (43_keystream.md), and the
keystream buffer's ENSURE, KW and WINDOW (44_mac.md R161). -/

namespace Sys2Proof.Machine

/-- One round's BR and F on a cipher state (R120, R126): R1 and R2 change, the cells do not. -/
def stepF (c : Cipher) : Cipher :=
  { c with
    r1 := fR1 c.r1 c.r2 (x1 c.lfsr) (x2 c.lfsr)
    r2 := fR2 c.r1 c.r2 (x1 c.lfsr) (x2 c.lfsr) }

/-- The word W that this F returns. -/
def outF (c : Cipher) : Word := fOut c.r1 c.r2 (x0 c.lfsr)

/-- u = W >> 1, 31 bits (R108; 90_conflicts.md C6). -/
def foldWord (w : Word) : Cell := w.extractLsb' 1 31

/-- One initialization round (R140): BR, F, ADVANCE_INIT(W >> 1). -/
def initRound (z : ZeroRep) (c : Cipher) : Cipher :=
  { stepF c with lfsr := advanceInit z (foldWord (outF c)) c.lfsr }

/-- n initialization rounds. -/
def initRounds (z : ZeroRep) : Nat → Cipher → Cipher
  | 0, c => c
  | n + 1, c => initRounds z n (initRound z c)

/-- KEYLOAD with R1 = R2 = 0 (R140), KSIDX = 0 (R145, R165). -/
def loadedCipher (k iv : Quad) : Cipher :=
  { lfsr := keyLoad k iv, r1 := 0, r2 := 0, ksidx := 0 }

/-- INITIALIZE(k, iv) (R140): 32 rounds, then the priming BR and F, whose output is discarded and which does
not advance the LFSR (90_conflicts.md C4); with KSIDX ← 0, which both its callers write. -/
def keyedCipher (z : ZeroRep) (k iv : Quad) : Cipher :=
  stepF (initRounds z 32 (loadedCipher k iv))

/-- The generator after ADVANCE_WORK, before F (R141). -/
def workAdvance (z : ZeroRep) (c : Cipher) : Cipher :=
  { c with lfsr := advanceWork z c.lfsr }

/-- The word NEXTWORD returns (R141): Z = W ⊕ X3, after the advance. -/
def nextWord (z : ZeroRep) (c : Cipher) : Word :=
  outF (workAdvance z c) ^^^ x3 (workAdvance z c).lfsr

/-- The state NEXTWORD leaves (R141): KSIDX counts the word, modulo 2^64 (R23). -/
def afterWord (z : ZeroRep) (c : Cipher) : Cipher :=
  { stepF (workAdvance z c) with ksidx := c.ksidx + 1#64 }

/-- The next n keystream words, in order (R146). -/
def words (z : ZeroRep) : Nat → Cipher → List Word
  | 0, _ => []
  | n + 1, c => nextWord z c :: words z n (afterWord z c)

/-- The state after n calls of NEXTWORD. -/
def afterWords (z : ZeroRep) : Nat → Cipher → Cipher
  | 0, c => c
  | n + 1, c => afterWords z n (afterWord z c)

/-- One turn of ENSURE's loop (R161): KBUF[0] ← KBUF[1], KBUF[1] ← NEXTWORD(). -/
def draw (z : ZeroRep) (st : Stream) : Stream :=
  { cipher := afterWord z st.cipher, kbuf0 := st.kbuf1, kbuf1 := nextWord z st.cipher }

/-- n turns of ENSURE's loop. -/
def drawN (z : ZeroRep) : Nat → Stream → Stream
  | 0, st => st
  | n + 1, st => drawN z n (draw z st)

/-- ENSURE(j) (R161): draw while KSIDX ≤ j, which is j + 1 - KSIDX times. -/
def ensure (z : ZeroRep) (j : Nat) (st : Stream) : Stream :=
  drawN z (j + 1 - st.cipher.ksidx.toNat) st

/-- KW(j) = KBUF[j - KSIDX + 2] (R161), defined when KSIDX - 2 ≤ j ≤ KSIDX - 1; elsewhere the free value
`Config.unbufferedWord` (log entry 3). -/
def kw (st : Stream) (j : Nat) : Word :=
  if j + 2 = st.cipher.ksidx.toNat then st.kbuf0
  else if j + 1 = st.cipher.ksidx.toNat then st.kbuf1
  else Config.unbufferedWord j st.cipher.ksidx.toNat

/-- The state WINDOW(n) leaves (R161). -/
def afterWindow (z : ZeroRep) (n : Nat) (st : Stream) : Stream :=
  ensure z (n / 32 + 1) st

/-- The word WINDOW(n) returns (R161); for r = 0 no shift is performed. -/
def window (z : ZeroRep) (n : Nat) (st : Stream) : Word :=
  let st' := afterWindow z n st
  if n % 32 = 0 then kw st' (n / 32)
  else (kw st' (n / 32) <<< (n % 32)) ||| (kw st' (n / 32 + 1) >>> (32 - n % 32))

end Sys2Proof.Machine
end

