-- ==== Sys2Proof/Machine/Ops.lean ====
section
/-! DEFINITION. The shared operations of the commands and of the port: how a command is accepted, completes and
fails (R203, R243, R244), the fresh context of INIT and MACINIT, the accumulator's body (R163), the reset
input (R240), the answers of the register bus (R183, R184). -/

namespace Sys2Proof.Machine

/-- The end of a command (R244): its code into STATUS.ERR, PENDING ← none, and with it BUSY ← 0. -/
def State.complete (s : State) (e : Err) : State :=
  { s with err := e, pending := none }

/-- `raise Err(code)` (R9, R203, R206), the core's one way of reporting a failure: the command ends with its
code in STATUS.ERR and no other state changes; nothing is saved and control goes nowhere. -/
def State.raiseErr (s : State) (e : Err) : State :=
  s.complete e

/-- The failure of GEN (R148), which also clears OUTBUF and WORDS_OUT. -/
def State.raiseGen (s : State) (e : Err) : State :=
  { s.raiseErr e with outbuf := List.replicate s.cfg.capacityWords 0, wordsOut := 0 }

/-- ACCEPT(v) (R243): OVR and ERR cleared, v into PENDING, and with it BUSY ← 1. The command takes the next
LAT of the list, 0 when there is none (log entry 4). -/
def State.accept (s : State) (v : Word) : State :=
  { s with
    ovr       := false
    err       := .ok
    pending   := some ⟨v, s.latencies.headD 0⟩
    latencies := s.latencies.tail }

/-- What a successful INIT or MACINIT leaves (R145, R165), but for STATUS.ERR: a keyed generator with
KSIDX = 0, every result and staging register of the key and IV cleared, and the new CTX. -/
def State.freshContext (s : State) (ctx : Ctx) : State :=
  { s with
    stream   := ⟨keyedCipher s.cfg.zeroRep s.key s.iv, 0, 0⟩
    t        := 0
    mlen     := 0
    outbuf   := List.replicate s.cfg.capacityWords 0
    wordsOut := 0
    tag      := 0
    key      := Quad.zero
    iv       := Quad.zero
    ctx      := ctx }

/-- INIT and MACINIT (R145, R165): the length checks in their order, then the fresh context. -/
def State.startContext (s : State) (klen ivlen : Byte) (ctx : Ctx) : State :=
  if klen ≠ 16#8 then s.raiseErr .invalidKeyLength
  else if ivlen ≠ 16#8 then s.raiseErr .invalidIvLength
  else (s.freshContext ctx).complete .ok

/-- What ACCUMULATE changes: the accumulator T and the generator with its buffer. -/
structure Acc where
  t      : Word
  stream : Stream
  deriving DecidableEq, Repr

/-- One turn of ACCUMULATE's loop (R163), for bit i of a chunk that starts at message position `pos`. -/
def absorb (z : ZeroRep) (buf : List Word) (pos : Nat) (a : Acc) (i : Nat) : Acc :=
  if msgBit buf i then
    { t := a.t ^^^ window z (pos + i) a.stream, stream := afterWindow z (pos + i) a.stream }
  else a

/-- ACCUMULATE(n) (R163), but for MLEN. -/
def accumulate (z : ZeroRep) (buf : List Word) (pos n : Nat) (a : Acc) : Acc :=
  (List.range n).foldl (absorb z buf pos) a

/-- The reset input (R240): the reset state, whatever the core was doing; a command in flight is abandoned.
The parameters, and what the outside still presents and has been answered, are not the core's to reset. -/
def State.hardReset (s : State) : State :=
  { State.resetOf s.cfg with latencies := s.latencies, port := s.port, replies := s.replies }

/-- The port answers a transaction (R180). -/
def State.answer (s : State) (r : Reply) : State :=
  { s with replies := r :: s.replies }

end Sys2Proof.Machine
end

