-- ==== Sys2Proof/Machine/Bus.lean ====
section
/-! DEFINITION. The meanings of the two bus transactions, RD (R183) and WR (R184). -/

namespace Sys2Proof.Machine

/-- The value `ID` holds, ASCII "LFS1" (R36). -/
def idValue : Word := 0x4C465331#32

/-- The value a register reads as while BUSY = 0 (R183); the write-only ones read 0. -/
def State.regValue (s : State) (r : Reg) : Word :=
  match r with
  | .id       => idValue
  | .cmd      => 0
  | .status   => s.status
  | .cap      => BitVec.ofNat 32 s.cfg.capacityWords
  | .wordsOut => s.wordsOut
  | .ksidxLo  => s.stream.cipher.ksidx.extractLsb' 0 32
  | .ksidxHi  => s.stream.cipher.ksidx.extractLsb' 32 32
  | .mbcap    => BitVec.ofNat 32 s.cfg.msgbufWords
  | .mlenLo   => s.mlen.extractLsb' 0 32
  | .mlenHi   => s.mlen.extractLsb' 32 32
  | .tag      => s.tag
  | .key _    => 0
  | .iv _     => 0
  | .msgbuf _ => 0
  | .outbuf j => if j < s.wordsOut.toNat then s.outbuf.getD j 0 else 0

/-- The registers that read as they are while BUSY = 1 (R245). -/
def Reg.readableBusy (r : Reg) : Bool :=
  r == .id || r == .status

/-- The reply to RD(off, size) (R183, with R181, R182 and R245 in their order). -/
def State.readReply (s : State) (off : Offset) (size : Nat) : Reply :=
  match target s.cfg off size with
  | none   => .read 0 .error
  | some r => if s.busy && !r.readableBusy then .read 0 .okay else .read (s.regValue r) .okay

/-- RD (R183): the reply, and no state of the core (R59). -/
def execRd (off : Offset) (size : Nat) (s : State) : Host.Outcome State Fault Refusal :=
  .next (s.answer (s.readReply off size))

/-- A write that reaches a register while BUSY = 0 (R184, R185): staging registers are stored, CMD is
accepted, every other register ignores it. -/
def State.writeReg (s : State) (r : Reg) (v : Word) : State :=
  match r with
  | .cmd      => s.accept v
  | .key n    => { s with key := s.key.write n v }
  | .iv n     => { s with iv := s.iv.write n v }
  | .msgbuf m => { s with msgbuf := s.msgbuf.set m v }
  | .id       => s
  | .status   => s
  | .cap      => s
  | .wordsOut => s
  | .ksidxLo  => s
  | .ksidxHi  => s
  | .mbcap    => s
  | .mlenLo   => s
  | .mlenHi   => s
  | .tag      => s
  | .outbuf _ => s

/-- WR (R184, with R181, R182 and R246 in their order). -/
def execWr (off : Offset) (size : Nat) (v : Word) (s : State) : Host.Outcome State Fault Refusal :=
  match target s.cfg off size with
  | none   => .next (s.answer (.wrote .error))
  | some r =>
    if s.busy then .next ({ s with ovr := true }.answer (.wrote .okay))
    else .next ((s.writeReg r v).answer (.wrote .okay))

end Sys2Proof.Machine
end

