-- ==== Sys2Proof/Machine/Keystream.lean ====
section
/-! DEFINITION. The meanings of NOP, INIT, GEN, DESTROY (43_keystream.md) and of an illegal word (R84). -/

namespace Sys2Proof.Machine

/-- NOP (R144): only STATUS. -/
def execNop (s : State) : Host.Outcome State Fault Refusal :=
  .next (s.complete .ok)

/-- INIT (R145): a fresh keystream context. -/
def execInit (klen ivlen : Byte) (s : State) : Host.Outcome State Fault Refusal :=
  .next (s.startContext klen ivlen .ks)

/-- What a successful GEN leaves (R146), but for STATUS.ERR: the next n keystream words in OUTBUF, its rest 0. -/
def State.generate (s : State) (n : Nat) : State :=
  { s with
    stream   := { s.stream with cipher := afterWords s.cfg.zeroRep n s.stream.cipher }
    outbuf   := words s.cfg.zeroRep n s.stream.cipher ++ List.replicate (s.cfg.capacityWords - n) 0
    wordsOut := BitVec.ofNat 32 n }

/-- GEN (R146, R148). -/
def execGen (n : BitVec 28) (s : State) : Host.Outcome State Fault Refusal :=
  if s.ctx ≠ .ks then .next (s.raiseGen .uninitializedContext)
  else if n.toNat > s.cfg.capacityWords then .next (s.raiseGen .capacityExceeded)
  else .next ((s.generate n.toNat).complete .ok)

/-- The wipe of DESTROY (R149). -/
def State.wipe (s : State) : State :=
  { s with
    stream   := Stream.zero
    t        := 0
    mlen     := 0
    key      := Quad.zero
    iv       := Quad.zero
    msgbuf   := List.replicate s.cfg.msgbufWords 0
    outbuf   := List.replicate s.cfg.capacityWords 0
    wordsOut := 0
    tag      := 0
    ctx      := .uninit }

/-- DESTROY (R149): legal in every CTX, never fails. -/
def execDestroy (s : State) : Host.Outcome State Fault Refusal :=
  .next (s.wipe.complete .ok)

/-- An illegal command word (R84): no effect but STATUS.ERR = IllegalCommand. -/
def execIllegal (_w : Word) (s : State) : Host.Outcome State Fault Refusal :=
  .next (s.raiseErr .illegalCommand)

end Sys2Proof.Machine
end

