-- ==== Sys2Proof/Machine/Mac.lean ====
section
/-! DEFINITION. The meanings of MACINIT, MACUPD and MACFINAL (44_mac.md). -/

namespace Sys2Proof.Machine

/-- MACINIT (R165): a fresh authentication context; no keystream word is drawn. -/
def execMacinit (klen ivlen : Byte) (s : State) : Host.Outcome State Fault Refusal :=
  .next (s.startContext klen ivlen .mac)

/-- What a successful MACUPD leaves (R163), but for STATUS.ERR: the chunk's n bits absorbed at the positions
MLEN, MLEN + 1, ..., and MLEN moved past them. -/
def State.update (s : State) (n : Nat) : State :=
  let a := accumulate s.cfg.zeroRep s.msgbuf s.mlen.toNat n ⟨s.t, s.stream⟩
  { s with t := a.t, stream := a.stream, mlen := s.mlen + BitVec.ofNat 64 n }

/-- MACUPD (R166). -/
def execMacupd (n : BitVec 28) (s : State) : Host.Outcome State Fault Refusal :=
  if s.ctx ≠ .mac then .next (s.raiseErr .uninitializedContext)
  else if n.toNat > 32 * s.cfg.msgbufWords then .next (s.raiseErr .capacityExceeded)
  else if s.mlen.toNat + n.toNat ≥ 2 ^ 64 then .next (s.raiseErr .capacityExceeded)
  else .next ((s.update n.toNat).complete .ok)

/-- The index e = ceil(L/32) + 1 of the last word of the tag (R160, R167). -/
def lastWordIndex (len : Nat) : Nat := (len + 31) / 32 + 1

/-- The generator when MACFINAL has drawn its last word (R167). -/
def State.finalStream (s : State) : Stream :=
  ensure s.cfg.zeroRep (lastWordIndex s.mlen.toNat) (afterWindow s.cfg.zeroRep s.mlen.toNat s.stream)

/-- The tag of MACFINAL (R167): T ⊕ WINDOW(L) ⊕ KW(e). -/
def State.finalTag (s : State) : Word :=
  s.t ^^^ window s.cfg.zeroRep s.mlen.toNat s.stream ^^^ kw s.finalStream (lastWordIndex s.mlen.toNat)

/-- What a successful MACFINAL leaves (R167), but for STATUS.ERR: TAG, and S, R1, R2, T and KBUF wiped; KSIDX
counts the words drawn and MLEN stays. -/
def State.finalize (s : State) : State :=
  { s with
    tag    := s.finalTag
    stream := ⟨{ Cipher.zero with ksidx := s.finalStream.cipher.ksidx }, 0, 0⟩
    t      := 0
    ctx    := .macdone }

/-- MACFINAL (R167). -/
def execMacfinal (s : State) : Host.Outcome State Fault Refusal :=
  if s.ctx ≠ .mac then .next (s.raiseErr .uninitializedContext)
  else .next (s.finalize.complete .ok)

end Sys2Proof.Machine
end

