-- ==== Sys2Proof/Machine/Dispatch.lean ====
section
/-! DEFINITION. One arm per instruction. -/

namespace Sys2Proof.Machine

def exec (i : Instr) (s : State) : Host.Outcome State Fault Refusal :=
  match i with
  | .nop => Sys2Proof.Machine.execNop s
  | .init klen ivlen => Sys2Proof.Machine.execInit klen ivlen s
  | .gen n => Sys2Proof.Machine.execGen n s
  | .destroy => Sys2Proof.Machine.execDestroy s
  | .macinit klen ivlen => Sys2Proof.Machine.execMacinit klen ivlen s
  | .macupd n => Sys2Proof.Machine.execMacupd n s
  | .macfinal => Sys2Proof.Machine.execMacfinal s
  | .illegal w => Sys2Proof.Machine.execIllegal w s
  | .rd off size => Sys2Proof.Machine.execRd off size s
  | .wr off size data => Sys2Proof.Machine.execWr off size data s

end Sys2Proof.Machine
end

