-- ==== Sys2Proof/WellFormed.lean ====
section
/-! DEFINITION. Well-formed instructions. The field widths are in the types; the one check left is that
ILLEGAL stands for a word that is no other row of spec/opcode_table.json (R84: "every legal word is exactly
one of the rows ... and every other word is illegal"). The rows are written here as mask and match, apart
from the decoder, so that the two can be compared. -/

namespace Sys2Proof

/-- One command row of spec/opcode_table.json: a word belongs to it when `word &&& mask = bits`. -/
structure Row where
  mask : Word
  bits : Word
  deriving DecidableEq, Repr

def Row.holds (r : Row) (w : Word) : Bool :=
  w &&& r.mask == r.bits

/-- NOP, INIT, GEN, DESTROY, MACINIT, MACUPD, MACFINAL (R83). -/
def commandRows : List Row :=
  [⟨0xFFFFFFFF#32, 0x00000000#32⟩, ⟨0xFFFF0000#32, 0x10000000#32⟩, ⟨0xF0000000#32, 0x20000000#32⟩,
   ⟨0xFFFFFFFF#32, 0x30000000#32⟩, ⟨0xFFFF0000#32, 0x40000000#32⟩, ⟨0xF0000000#32, 0x50000000#32⟩,
   ⟨0xFFFFFFFF#32, 0x60000000#32⟩]

/-- A legal command word: some row of the table holds of it (R84). -/
def legalWord (w : Word) : Bool :=
  commandRows.any (·.holds w)

/-- The check on ILLEGAL: its word is no legal command word. Every other instruction is well-formed as it
stands; a transaction that is misaligned or of another size is an instruction too, with the effect R181 gives. -/
def Instr.wellFormed : Instr → Bool
  | .nop          => true
  | .init _ _     => true
  | .gen _        => true
  | .destroy      => true
  | .macinit _ _  => true
  | .macupd _     => true
  | .macfinal     => true
  | .illegal w    => !legalWord w
  | .rd _ _       => true
  | .wr _ _ _     => true

end Sys2Proof
end

