-- ==== Sys2Proof/Decode.lean ====
section
/-! DEFINITION. The decoder (R80-R86), total on command words and on transactions, and the encoder. -/

namespace Sys2Proof

/-- OPC = CMD[31:28] (R80). -/
def opcField (w : Word) : BitVec 4 := w.extractLsb' 28 4

/-- The reserved field of format Z, CMD[27:0]. -/
def reservedZ (w : Word) : BitVec 28 := w.extractLsb' 0 28

/-- The reserved field of format K, CMD[27:16]. -/
def reservedK (w : Word) : BitVec 12 := w.extractLsb' 16 12

/-- KLEN = CMD[15:8] (R82). -/
def klenField (w : Word) : Byte := w.extractLsb' 8 8

/-- IVLEN = CMD[7:0] (R82). -/
def ivlenField (w : Word) : Byte := w.extractLsb' 0 8

/-- N = CMD[27:0] (R82). -/
def countField (w : Word) : BitVec 28 := w.extractLsb' 0 28

/-- The decode of a command word (R85): OPC against R83, then the reserved field of the format; a word that
fails either is ILLEGAL (R84). -/
def decodeCmd (w : Word) : Instr :=
  match (opcField w).toNat with
  | 0 => if reservedZ w = 0 then .nop else .illegal w
  | 1 => if reservedK w = 0 then .init (klenField w) (ivlenField w) else .illegal w
  | 2 => .gen (countField w)
  | 3 => if reservedZ w = 0 then .destroy else .illegal w
  | 4 => if reservedK w = 0 then .macinit (klenField w) (ivlenField w) else .illegal w
  | 5 => .macupd (countField w)
  | 6 => if reservedZ w = 0 then .macfinal else .illegal w
  | _ => .illegal w

/-- The descriptor of R81: bit 16 chooses write or read, bits 15..0 are the byte offset. Every offset
decodes; R181 and R182 answer the misaligned and the reserved ones. -/
def decodeTxn (t : BusTxn) : Instr :=
  if t.desc.getLsbD 16 then .wr (t.desc.extractLsb' 0 16) t.size t.wdata
  else .rd (t.desc.extractLsb' 0 16) t.size

def decode : HostWord → Instr
  | .cmd w => decodeCmd w
  | .bus t => decodeTxn t

/-- The encoder, from the tables of R80, R81 and R83. -/
def encode : Instr → HostWord
  | .nop               => .cmd 0x00000000#32
  | .init klen ivlen   => .cmd (0x1#4 ++ 0#12 ++ klen ++ ivlen)
  | .gen n             => .cmd (0x2#4 ++ n)
  | .destroy           => .cmd 0x30000000#32
  | .macinit klen ivlen => .cmd (0x4#4 ++ 0#12 ++ klen ++ ivlen)
  | .macupd n          => .cmd (0x5#4 ++ n)
  | .macfinal          => .cmd 0x60000000#32
  | .illegal w         => .cmd w
  | .rd off size       => .bus ⟨0#1 ++ off, size, 0⟩
  | .wr off size data  => .bus ⟨1#1 ++ off, size, data⟩

/-- Why a table word is not decoded. -/
inductive DecodeError where
  /-- a descriptor has 17 bits (R81) -/
  | descriptorTooWide
  /-- a command word has 32 bits (R80) -/
  | commandTooWide
  deriving DecidableEq, Repr

/-- The form in which a word of spec/opcode_table.json reaches the decoder. A row of at most 24 bits (RD, WR:
17 bits in whole bytes) is a descriptor, of a 4-byte transaction with data word 0; any other is a command word. -/
def hostWordOf (nbits w : Nat) : Except DecodeError HostWord :=
  if nbits ≤ 24 then
    if w < 2 ^ 17 then .ok (.bus ⟨BitVec.ofNat 17 w, 4, 0⟩) else .error .descriptorTooWide
  else
    if w < 2 ^ 32 then .ok (.cmd (BitVec.ofNat 32 w)) else .error .commandTooWide

/-- The instruction the decoder reads from a table word; `none` where it refuses. -/
def decodeTableWord (nbits w : Nat) : Option Instr :=
  match hostWordOf nbits w with
  | .ok h    => some (decode h)
  | .error _ => none

end Sys2Proof
end

