-- ==== Sys2Proof/Machine/Fetch.lean ====
section
/-! DEFINITION. What the core does next (R62, R210, R244): complete the command in flight when its LAT has
passed, else take the next event of the port, else stay idle. The core fetches no program (R37): an instruction
is the word in PENDING, or the transaction at the port. -/

namespace Sys2Proof.Machine

/-- One step of the core, before it is carried out. -/
inductive Action where
  /-- an instruction runs, on the state given -/
  | run (i : Instr) (s : State)
  /-- no instruction runs: reset, or an idle clock -/
  | quiet (s : State)
  deriving DecidableEq, Repr

/-- The next event of the port: a transaction runs on the state that has taken it from the port; reset takes
effect at once; with nothing presented the core is idle (R217). -/
def State.takeEvent (s : State) : Action :=
  match s.port with
  | []             => .quiet s
  | .txn t :: rest => .run (decodeTxn t) { s with port := rest }
  | .rst :: rest   => .quiet { s with port := rest }.hardReset

/-- The next step. A command whose LAT has passed completes, as one step and never together with a transaction
(R210, R244); while some of its LAT is left, one of it passes with each step. -/
def State.nextAction (s : State) : Action :=
  match s.pending with
  | none             => s.takeEvent
  | some ⟨w, 0⟩     => .run (decodeCmd w) s
  | some ⟨w, n + 1⟩ => State.takeEvent { s with pending := some ⟨w, n⟩ }

/-- A command in flight takes one step more, so that a transaction put at the port comes before it. -/
def holdBack : Option InFlight → Option InFlight
  | none        => none
  | some ⟨w, n⟩ => some ⟨w, n + 1⟩

/-- The state in which the very next step runs the instruction of a table word (log entry 5): a command word is in
PENDING as ACCEPT leaves it (R243), with no LAT left; a descriptor is at the head of the port, with size 4 and
data word 0. -/
def State.present (s : State) (nbits w : Nat) : State :=
  if nbits ≤ 24 then
    { s with
      port    := .txn ⟨BitVec.ofNat 17 w, 4, 0⟩ :: s.port
      pending := holdBack s.pending }
  else { s with ovr := false, err := .ok, pending := some ⟨BitVec.ofNat 32 w, 0⟩ }

end Sys2Proof.Machine
end

