-- ==== Sys2Proof/Machine/Step.lean ====
section
/-! DEFINITION. One step of the core. -/

namespace Sys2Proof.Machine

/-- Carry out the next action. -/
def step (s : State) : Host.Outcome State Fault Refusal :=
  match s.nextAction with
  | .run i s'  => exec i s'
  | .quiet s'  => .next s'

/-- `s` with a table word where the next step takes its instruction. -/
def State.withFetchWord (s : State) (nbits w : Nat) : State :=
  s.present nbits w

end Sys2Proof.Machine
end

