-- ==== Sys2Proof/Machine/HostScript.lean ====
section
/-! DEFINITION. The host's side of the window as the spec writes it: the byte orders of what goes in and comes
out (R54-R57), the script forms of R87 and the pseudo-instructions of R88, as events of the port. -/

namespace Sys2Proof.Machine

/-- The four bytes of a word, most significant first (R54, R57): byte b is w[31-8b : 24-8b]. -/
def wordBytes (w : Word) : List Byte :=
  [w.extractLsb' 24 8, w.extractLsb' 16 8, w.extractLsb' 8 8, w.extractLsb' 0 8]

/-- The byte stream of keystream words in emission order (R54). -/
def keystreamBytes (ws : List Word) : List Byte :=
  ws.flatMap wordBytes

/-- Message bytes packed into buffer words (R56, R88), the last word padded with zero bytes on the right. -/
def packBytes : List Byte → List Word
  | a :: b :: c :: d :: rest => (a ++ b ++ c ++ d) :: packBytes rest
  | [a, b, c] => [a ++ b ++ c ++ 0#8]
  | [a, b] => [a ++ b ++ 0#8 ++ 0#8]
  | [a] => [a ++ 0#8 ++ 0#8 ++ 0#8]
  | [] => []

/-- `wr NAME, VALUE` (R87). -/
def wrEvent (r : Reg) (v : Word) : PortEvent :=
  .txn ⟨1#1 ++ BitVec.ofNat 16 r.offset, 4, v⟩

/-- `rd NAME` (R87). -/
def rdEvent (r : Reg) : PortEvent :=
  .txn ⟨0#1 ++ BitVec.ofNat 16 r.offset, 4, 0⟩

/-- `cmd X` (R87): the command word written to CMD; a transaction is itself an event of the port. -/
def cmdEvent (i : Instr) : PortEvent :=
  match encode i with
  | .cmd w => wrEvent .cmd w
  | .bus t => .txn t

/-- `key HEX32` (R88). -/
def keyEvents (k : Quad) : List PortEvent :=
  [wrEvent (.key 0) k.w0, wrEvent (.key 1) k.w1, wrEvent (.key 2) k.w2, wrEvent (.key 3) k.w3]

/-- `iv HEX32` (R88). -/
def ivEvents (v : Quad) : List PortEvent :=
  [wrEvent (.iv 0) v.w0, wrEvent (.iv 1) v.w1, wrEvent (.iv 2) v.w2, wrEvent (.iv 3) v.w3]

/-- `msg HEXBYTES` (R88), from word m on. -/
def msgEventsFrom : Nat → List Word → List PortEvent
  | _, [] => []
  | m, w :: ws => wrEvent (.msgbuf m) w :: msgEventsFrom (m + 1) ws

/-- `msg HEXBYTES` (R88). -/
def msgEvents (bs : List Byte) : List PortEvent :=
  msgEventsFrom 0 (packBytes bs)

/-- `n` steps of a host that presents nothing new; `none` if the core stopped, which no step does. -/
def runSteps : Nat → State → Option State
  | 0, s => some s
  | n + 1, s =>
    match step s with
    | .next t    => runSteps n t
    | .fault _   => none
    | .refused _ => none

/-- The events the host presents, each taken by a step of its own, with one more step for each command among them
that completes at once. -/
def perform : List PortEvent → State → Option State
  | [], s => some s
  | e :: es, s =>
    match s.pending with
    | some ⟨_, 0⟩ => (runSteps 2 { s with port := [e] }).bind (perform es)
    | _           => (runSteps 1 { s with port := [e] }).bind (perform es)

/-- `poll` (R88): read STATUS until BUSY is 0, at most `fuel` times; the last value read, and the state. -/
def poll : Nat → State → Option (Word × State)
  | 0, _ => none
  | fuel + 1, s =>
    match perform [rdEvent .status] s with
    | none => none
    | some t =>
      match t.replies with
      | .read v _ :: _ => if v.getLsbD 0 then poll fuel t else some (v, t)
      | _ => none

/-- `exec X` (R88): `cmd X` then `poll`. -/
def execScript (fuel : Nat) (i : Instr) (s : State) : Option (Word × State) :=
  (perform [cmdEvent i] s).bind (poll fuel)

/-- `init HEXK, HEXIV` (R88). -/
def initScript (fuel : Nat) (k iv : Quad) (s : State) : Option (Word × State) :=
  (perform (keyEvents k ++ ivEvents iv) s).bind (execScript fuel (.init 16 16))

/-- `macinit HEXK, HEXIV` (R88). -/
def macinitScript (fuel : Nat) (k iv : Quad) (s : State) : Option (Word × State) :=
  (perform (keyEvents k ++ ivEvents iv) s).bind (execScript fuel (.macinit 16 16))

/-- The end of a host program (R250): its last transaction performed and no command in flight. -/
def State.finished (s : State) : Bool :=
  s.port.isEmpty && !s.busy

end Sys2Proof.Machine
end

