-- ==== Sys2Proof/Safety.lean ====
section
/-! DEFINITION. The terms the claims use: the keystream and the tag as the spec defines them in closed form
(R10, R11, R142, R160), the table of legal commands (R205) and the order of the checks (R204), what a reader of
the window can see, and what holds of every state of the core. -/

namespace Sys2Proof.Machine

/-! The keystream and the tag. -/

/-- KS(j) (R142): the word the (j+1)-th NEXTWORD after INITIALIZE(k, iv) returns. -/
def keystreamWord (z : ZeroRep) (k iv : Quad) (j : Nat) : Word :=
  nextWord z (afterWords z j (keyedCipher z k iv))

/-- Keystream bit n (R11): bit 31 - (n mod 32) of KS(floor(n/32)). -/
def keystreamBit (z : ZeroRep) (k iv : Quad) (n : Nat) : Bool :=
  (keystreamWord z k iv (n / 32)).getLsbD (31 - n % 32)

/-- The word whose bits, the most significant first, are those of a list (R11). -/
def wordOfBits (bs : List Bool) : Word :=
  bs.foldl (fun w b => (w <<< 1) ||| (BitVec.ofBool b).setWidth 32) 0

/-- KWIN(n) (R11): bit 31 is keystream bit n, bit 0 is keystream bit n + 31. -/
def kwin (z : ZeroRep) (k iv : Quad) (n : Nat) : Word :=
  wordOfBits ((List.range 32).map fun b => keystreamBit z k iv (n + b))

/-- The XOR of KWIN(i) over the set bits of a message (R160). -/
def tagSum (z : ZeroRep) (k iv : Quad) (m : List Bool) : Word :=
  (List.range m.length).foldl (fun t i => if m.getD i false then t ^^^ kwin z k iv i else t) 0

/-- TAGFN(k, iv, M) (R160), the last word aligned (90_conflicts.md C2). -/
def tagFn (z : ZeroRep) (k iv : Quad) (m : List Bool) : Word :=
  tagSum z k iv m ^^^ kwin z k iv m.length ^^^ keystreamWord z k iv ((m.length + 31) / 32 + 1)

/-- The first n message bits of a buffer (R162). -/
def chunkBits (buf : List Word) (n : Nat) : List Bool :=
  (List.range n).map (msgBit buf)

/-- What KBUF[k] holds in context MAC (R27): KS(KSIDX - 2 + k), and 0 before there are that many words. -/
def bufferedWord (z : ZeroRep) (k iv : Quad) (ksidx slot : Nat) : Word :=
  if ksidx + slot < 2 then 0 else keystreamWord z k iv (ksidx + slot - 2)

/-- The state is a keystream context of (k, iv) that has drawn n words. -/
structure State.KsTracks (s : State) (k iv : Quad) (n : Nat) : Prop where
  ctx    : s.ctx = .ks
  cipher : s.stream.cipher = afterWords s.cfg.zeroRep n (keyedCipher s.cfg.zeroRep k iv)

/-- The state is an authentication context of (k, iv) that has been given the message m (R25, R26, R27, R164). -/
structure State.MacTracks (s : State) (k iv : Quad) (m : List Bool) : Prop where
  ctx    : s.ctx = .mac
  mlen   : s.mlen.toNat = m.length
  cipher : s.stream.cipher =
    afterWords s.cfg.zeroRep s.stream.cipher.ksidx.toNat (keyedCipher s.cfg.zeroRep k iv)
  kbuf0  : s.stream.kbuf0 = bufferedWord s.cfg.zeroRep k iv s.stream.cipher.ksidx.toNat 0
  kbuf1  : s.stream.kbuf1 = bufferedWord s.cfg.zeroRep k iv s.stream.cipher.ksidx.toNat 1
  t      : s.t = tagSum s.cfg.zeroRep k iv m
  drawn  : s.stream.cipher.ksidx.toNat ≤ (m.length + 31) / 32 + 1

/-- One chunk of a message: the words the host puts in MSGBUF, and how many of their bits it passes (R166). -/
structure Chunk where
  buf : List Word
  n   : BitVec 28
  deriving DecidableEq, Repr

/-- The message that chunks make, joined at bit level (R164). -/
def messageOf (cs : List Chunk) : List Bool :=
  cs.flatMap fun c => chunkBits c.buf c.n.toNat

/-- The state an outcome gives, if it is a next state. -/
def nextOf (o : Host.Outcome State Fault Refusal) : Option State :=
  match o with
  | .next t    => some t
  | .fault _   => none
  | .refused _ => none

/-- MSGBUF filled and MACUPD run, chunk by chunk. -/
def feedChunks : List Chunk → State → Option State
  | [], s => some s
  | c :: cs, s => (nextOf (exec (.macupd c.n) { s with msgbuf := c.buf })).bind (feedChunks cs)

/-- Two registers whose cells stand for the same residues modulo p (R100). -/
def Lfsr.SameResidues (a b : Lfsr) : Prop :=
  ∀ i : Fin 16, (a.cell i).toNat % prime = (b.cell i).toNat % prime

/-! Commands. -/

/-- The instructions that run when a command completes; the two others are transactions. -/
def isCommand (i : Instr) : Bool :=
  match i with
  | .nop => true
  | .init _ _ => true
  | .gen _ => true
  | .destroy => true
  | .macinit _ _ => true
  | .macupd _ => true
  | .macfinal => true
  | .illegal _ => true
  | .rd _ _ => false
  | .wr _ _ _ => false

/-- The table of R205: is the command legal in this lifecycle state? -/
def legalIn (i : Instr) (c : Ctx) : Bool :=
  match i with
  | .nop => true
  | .init _ _ => true
  | .gen _ => decide (c = .ks)
  | .destroy => true
  | .macinit _ _ => true
  | .macupd _ => decide (c = .mac)
  | .macfinal => decide (c = .mac)
  | .illegal _ => true
  | .rd _ _ => true
  | .wr _ _ _ => true

/-- The arrows of R205: the lifecycle state after a success. -/
def ctxAfter (i : Instr) (c : Ctx) : Ctx :=
  match i with
  | .nop => c
  | .init _ _ => .ks
  | .gen _ => c
  | .destroy => .uninit
  | .macinit _ _ => .mac
  | .macupd _ => c
  | .macfinal => .macdone
  | .illegal _ => c
  | .rd _ _ => c
  | .wr _ _ _ => c

/-- Check 1 of R204: the word was decoded as illegal. -/
def isIllegal (i : Instr) : Bool :=
  match i with
  | .nop => false
  | .init _ _ => false
  | .gen _ => false
  | .destroy => false
  | .macinit _ _ => false
  | .macupd _ => false
  | .macfinal => false
  | .illegal _ => true
  | .rd _ _ => false
  | .wr _ _ _ => false

/-- KLEN of the commands that have one (check 3); the others are as if it were right. -/
def keyLength (i : Instr) : Nat :=
  match i with
  | .nop => 16
  | .init k _ => k.toNat
  | .gen _ => 16
  | .destroy => 16
  | .macinit k _ => k.toNat
  | .macupd _ => 16
  | .macfinal => 16
  | .illegal _ => 16
  | .rd _ _ => 16
  | .wr _ _ _ => 16

/-- IVLEN of the commands that have one (check 4). -/
def ivLength (i : Instr) : Nat :=
  match i with
  | .nop => 16
  | .init _ v => v.toNat
  | .gen _ => 16
  | .destroy => 16
  | .macinit _ v => v.toNat
  | .macupd _ => 16
  | .macfinal => 16
  | .illegal _ => 16
  | .rd _ _ => 16
  | .wr _ _ _ => 16

/-- Check 5 of R204, the count bound of GEN and of MACUPD. -/
def overCount (s : State) (i : Instr) : Bool :=
  match i with
  | .nop => false
  | .init _ _ => false
  | .gen n => decide (s.cfg.capacityWords < n.toNat)
  | .destroy => false
  | .macinit _ _ => false
  | .macupd n => decide (32 * s.cfg.msgbufWords < n.toNat)
  | .macfinal => false
  | .illegal _ => false
  | .rd _ _ => false
  | .wr _ _ _ => false

/-- Check 6 of R204, the length bound of MACUPD. -/
def overLength (s : State) (i : Instr) : Bool :=
  match i with
  | .nop => false
  | .init _ _ => false
  | .gen _ => false
  | .destroy => false
  | .macinit _ _ => false
  | .macupd n => decide (2 ^ 64 ≤ s.mlen.toNat + n.toNat)
  | .macfinal => false
  | .illegal _ => false
  | .rd _ _ => false
  | .wr _ _ _ => false

/-- The six checks of R204 in their order, each with the code it reports. -/
def checksOf (i : Instr) (s : State) : List (Bool × Err) :=
  [(isIllegal i, .illegalCommand), (!legalIn i s.ctx, .uninitializedContext),
   (keyLength i != 16, .invalidKeyLength), (ivLength i != 16, .invalidIvLength),
   (overCount s i, .capacityExceeded), (overLength s i, .capacityExceeded)]

/-- The error a command reports: the first of its checks that fails (R204). -/
def firstError (i : Instr) (s : State) : Option Err :=
  ((checksOf i s).find? (·.1)).map (·.2)

/-! The window. -/

/-- The registers that exist under the parameters (R51). -/
def Reg.inMap (cfg : Config) : Reg → Bool
  | .msgbuf m => decide (m < cfg.msgbufWords)
  | .outbuf j => decide (j < cfg.capacityWords)
  | _ => true

/-- Two states that agree on everything R183 lets a read return. -/
structure SameView (a b : State) : Prop where
  cfg      : a.cfg = b.cfg
  busy     : a.busy = b.busy
  ovr      : a.ovr = b.ovr
  err      : a.err = b.err
  ctx      : a.ctx = b.ctx
  ksidx    : a.stream.cipher.ksidx = b.stream.cipher.ksidx
  mlen     : a.mlen = b.mlen
  tag      : a.tag = b.tag
  wordsOut : a.wordsOut = b.wordsOut
  outbuf   : ∀ j, j < a.wordsOut.toNat → a.outbuf.getD j 0 = b.outbuf.getD j 0

/-- The next event is a WR to CMD that the core accepts (R184, R243): a 4-byte write at 0x0004, with no
command in flight. -/
def State.acceptsNext (s : State) : Bool :=
  !s.busy &&
    match s.port with
    | .txn t :: _ => t.desc == 0x10004#17 && t.size == 4
    | _ => false

/-- The next event is the reset input. -/
def State.resetsNext (s : State) : Bool :=
  match s.pending, s.port with
  | some ⟨_, 0⟩, _ => false
  | _, .rst :: _ => true
  | _, _ => false

/-! What holds of every state. -/

/-- The range of a cell that key loading or an advance wrote (R21). -/
def cellInRange (z : ZeroRep) (c : Cell) : Bool :=
  match z with
  | .zero => c != BitVec.allOnes 31
  | .allOnes => c != 0

/-- The invariant of the core: sizes (R30, R31), WORDS_OUT and what lies above it (R32, R41), STATUS.ERR while
BUSY (R34) and the code that is never raised (R201), what each lifecycle state leaves cleared (R41, R149, R167,
R168), how far the generator may be ahead of the message (R161) and the range of the cells (R21). -/
structure State.Inv (s : State) : Prop where
  cfgOk       : s.cfg.ok = true
  msgbufSize  : s.msgbuf.length = s.cfg.msgbufWords
  outbufSize  : s.outbuf.length = s.cfg.capacityWords
  wordsOutMax : s.wordsOut.toNat ≤ s.cfg.capacityWords
  outbufRest  : ∀ j, s.wordsOut.toNat ≤ j → s.outbuf.getD j 0 = 0
  busyErr     : s.busy = true → s.err = .ok
  errRaised   : s.err ≠ .allocationFailure
  onlyKsHasOutput : s.ctx ≠ .ks → s.wordsOut = 0
  onlyDoneHasTag : s.ctx ≠ .macdone → s.tag = 0
  uninitWiped : s.ctx = .uninit → s.stream = Stream.zero ∧ s.t = 0 ∧ s.mlen = 0
  ksUnused    : s.ctx = .ks → s.stream.kbuf0 = 0 ∧ s.stream.kbuf1 = 0 ∧ s.t = 0 ∧ s.mlen = 0
  macDrawn    : s.ctx = .mac → s.stream.cipher.ksidx.toNat ≤ (s.mlen.toNat + 31) / 32 + 1
  doneWiped   : s.ctx = .macdone →
    s.stream = ⟨{ Cipher.zero with ksidx := s.stream.cipher.ksidx }, 0, 0⟩ ∧ s.t = 0 ∧
      s.stream.cipher.ksidx.toNat = (s.mlen.toNat + 31) / 32 + 2
  cellRange   : s.ctx = .ks ∨ s.ctx = .mac →
    ∀ i : Fin 16, cellInRange s.cfg.zeroRep (s.stream.cipher.lfsr.cell i) = true

/-- Every live context is the one some key, IV and request history gave (R27, R142, R164). -/
structure State.Genuine (s : State) : Prop where
  ks  : s.ctx = .ks → ∃ k iv n, s.KsTracks k iv n
  mac : s.ctx = .mac → ∃ k iv m, s.MacTracks k iv m

/-- A state the claims call safe: the invariant holds, and its context is a genuine one. -/
def State.Safe (s : State) : Prop :=
  s.Inv ∧ s.Genuine

end Sys2Proof.Machine
end

