-- ==== Sys2Proof/Certificates/Slice0/Obligations.lean ====
section
/-! DEFINITION. The statements for the provers, from the numbered rules of spec/. -/

open Sys2Proof Sys2Proof.Machine

/-! ### Encoding -/

/-- Decode and encode agree (R80-R83, R81): no operand and no bit of an encoding is dropped. -/
def Obligations.DecodeEncodeRoundTrip : Prop :=
  ∀ i : Instr, i.wellFormed = true → decode (encode i) = i

/-- The other direction: each command word, and each transaction but for the data lines of a read, has one
meaning, and that meaning is well-formed. -/
def Obligations.EncodeDecodeRoundTrip : Prop :=
  (∀ w : Word, encode (decodeCmd w) = .cmd w ∧ (decodeCmd w).wellFormed = true) ∧
  (∀ t : BusTxn, encode (decodeTxn t) = .bus (if t.desc.toNat < 2 ^ 16 then { t with wdata := 0 } else t) ∧
    (decodeTxn t).wellFormed = true)

/-- R84: which words are illegal, in numbers; every other word is exactly one row of the table; an illegal word is
accepted like any command and completes with IllegalCommand and no other effect. -/
def Obligations.IllegalWordsExact : Prop :=
  ∀ w : Word,
    let opc := w.toNat / 2 ^ 28
    let illegal : Prop := 7 ≤ opc ∨ ((opc = 0 ∨ opc = 3 ∨ opc = 6) ∧ w.toNat % 2 ^ 28 ≠ 0) ∨
      ((opc = 1 ∨ opc = 4) ∧ w.toNat / 2 ^ 16 % 2 ^ 12 ≠ 0)
    (illegal ↔ decodeCmd w = .illegal w) ∧
    (¬ illegal ↔ (commandRows.filter (·.holds w)).length = 1) ∧
    (illegal → ∀ s : State,
      (s.pending = none → ∃ lat, exec (.wr 0x0004#16 4 w) s =
        .next { s with
          ovr := false, err := .ok, pending := some ⟨w, lat⟩, latencies := s.latencies.tail
          replies := .wrote .okay :: s.replies }) ∧
      (s.pending = some ⟨w, 0⟩ → step s = .next { s with err := .illegalCommand, pending := none }) ∧
      exec (.illegal w) s = .next { s with err := .illegalCommand, pending := none })

/-- Command words written out from the encoding tables of R80 and R83, and two descriptors of R81. That a table word
of RD or WR stands for a transaction of size 4 with data word 0 is the model's reading (log entry 8): R81 gives the
descriptor only. -/
def Obligations.TableWordsDecode : Prop :=
  decodeTableWord 32 0x00000000 = some .nop ∧
  decodeTableWord 32 0x10001010 = some (.init 16#8 16#8) ∧
  decodeTableWord 32 0x10000FFE = some (.init 15#8 254#8) ∧
  decodeTableWord 32 0x200007D0 = some (.gen 2000#28) ∧
  decodeTableWord 32 0x30000000 = some .destroy ∧
  decodeTableWord 32 0x40001010 = some (.macinit 16#8 16#8) ∧
  decodeTableWord 32 0x5FFFFFFF = some (.macupd 0xFFFFFFF#28) ∧
  decodeTableWord 32 0x60000000 = some .macfinal ∧
  decodeTableWord 32 0x70000000 = some (.illegal 0x70000000#32) ∧
  decodeTableWord 32 0x10011010 = some (.illegal 0x10011010#32) ∧
  decodeTableWord 24 0x04000 = some (.rd 0x4000#16 4) ∧
  decodeTableWord 24 0x10004 = some (.wr 0x0004#16 4 0#32)

/-- R82: every operand field is the unsigned number in its bits of the command word. -/
def Obligations.OperandFieldsAreUnsigned : Prop :=
  ∀ w : Word,
    (∀ k v, (decodeCmd w = .init k v ∨ decodeCmd w = .macinit k v) →
      k.toNat = w.toNat / 2 ^ 8 % 2 ^ 8 ∧ v.toNat = w.toNat % 2 ^ 8) ∧
    (∀ n, (decodeCmd w = .gen n ∨ decodeCmd w = .macupd n) → n.toNat = w.toNat % 2 ^ 28)

/-! ### The window -/

/-- R51: an aligned offset reaches exactly the register the map puts there, and no two registers alias. -/
def Obligations.RegisterMapExact : Prop :=
  ∀ (cfg : Config) (off : Offset) (r : Reg), cfg.ok = true → off.toNat % 4 = 0 →
    (regAt cfg off = some r ↔ r.inMap cfg = true ∧ r.offset = off.toNat)

/-- R183 (with R181, R182 and R245 as it calls them): RD answers, and changes nothing else. -/
def Obligations.ReadAnswersAsTheMapSays : Prop :=
  ∀ (s : State) (off : Offset) (size : Nat), s.cfg.ok = true →
    ∃ (v : Word) (resp : Resp),
      exec (.rd off size) s = .next { s with replies := .read v resp :: s.replies } ∧
      (size ≠ 4 ∨ off.toNat % 4 ≠ 0 → v = 0 ∧ resp = .error) ∧
      ((∀ r : Reg, r.inMap s.cfg = true → r.offset ≠ off.toNat) → v = 0 ∧ resp = .error) ∧
      (∀ r : Reg, size = 4 → r.inMap s.cfg = true → r.offset = off.toNat →
        resp = .okay ∧
        (s.busy = true → r ≠ .id → r ≠ .status → v = 0) ∧
        (s.busy = false ∨ r = .id ∨ r = .status →
          v.toNat =
            match r with
            | .id => 0x4C465331
            | .cap => s.cfg.capacityWords
            | .mbcap => s.cfg.msgbufWords
            | .status => s.err.code.toNat * 2 ^ 8 + s.ctx.code.toNat * 2 ^ 4 + (if s.ovr then 2 else 0)
                + (if s.pending = none then 0 else 1)
            | .wordsOut => s.wordsOut.toNat
            | .ksidxLo => s.stream.cipher.ksidx.toNat % 2 ^ 32
            | .ksidxHi => s.stream.cipher.ksidx.toNat / 2 ^ 32
            | .mlenLo => s.mlen.toNat % 2 ^ 32
            | .mlenHi => s.mlen.toNat / 2 ^ 32
            | .tag => s.tag.toNat
            | .outbuf j => if j < s.wordsOut.toNat then (s.outbuf.getD j 0).toNat else 0
            | .cmd => 0
            | .key _ => 0
            | .iv _ => 0
            | .msgbuf _ => 0))

/-- R184, with R185 (writes that are ignored) and R243 (ACCEPT) as it calls them; LAT is any number. -/
def Obligations.WriteReachesOnlyItsRegister : Prop :=
  ∀ (s : State) (off : Offset) (size : Nat) (v : Word), s.cfg.ok = true →
    (size ≠ 4 ∨ off.toNat % 4 ≠ 0 ∨ (∀ r : Reg, r.inMap s.cfg = true → r.offset ≠ off.toNat) →
      exec (.wr off size v) s = .next { s with replies := .wrote .error :: s.replies }) ∧
    (∀ r : Reg, size = 4 → r.inMap s.cfg = true → r.offset = off.toNat →
      (s.pending ≠ none →
        exec (.wr off size v) s = .next { s with ovr := true, replies := .wrote .okay :: s.replies }) ∧
      (s.pending = none →
        ∃ t : State, exec (.wr off size v) s = .next { t with replies := .wrote .okay :: s.replies } ∧
          (r = .cmd → ∃ lat, t = { s with
            ovr := false, err := .ok, pending := some ⟨v, lat⟩, latencies := s.latencies.tail }) ∧
          (∀ n : Fin 4, r = .key n → ∃ q : Quad, t = { s with key := q } ∧
            ∀ m : Fin 4, q.word m = if m = n then v else s.key.word m) ∧
          (∀ n : Fin 4, r = .iv n → ∃ q : Quad, t = { s with iv := q } ∧
            ∀ m : Fin 4, q.word m = if m = n then v else s.iv.word m) ∧
          (∀ m : Nat, r = .msgbuf m → ∃ buf : List Word, t = { s with msgbuf := buf } ∧
            buf.length = s.msgbuf.length ∧
            ∀ j : Nat, j < s.msgbuf.length → buf.getD j 0 = if j = m then v else s.msgbuf.getD j 0) ∧
          (r ≠ .cmd → (∀ n, r ≠ .key n) → (∀ n, r ≠ .iv n) → (∀ m, r ≠ .msgbuf m) → t = s)))

/-- R246, R34: OVR, once set, falls only when a CMD write is accepted (or at reset). -/
def Obligations.OvrFallsOnlyOnAcceptance : Prop :=
  ∀ s t : State, step s = .next t → s.ovr = true → t.ovr = false →
    s.acceptsNext = true ∨ s.resetsNext = true

/-- R40, R186: what RD answers depends only on the state R183 lets the host see; the cells, R1, R2, T, KBUF,
the staging registers and OUTBUF above WORDS_OUT never reach the port. -/
def Obligations.HiddenStateNeverReachesThePort : Prop :=
  ∀ (a b ta tb : State) (off : Offset) (size : Nat), SameView a b →
    exec (.rd off size) a = .next ta → exec (.rd off size) b = .next tb →
    ta.replies.head? = tb.replies.head?

/-- R245: while BUSY = 1 a read shows no keystream, tag, count or result: the answers of two busy cores that
agree on the parameters and on STATUS are the same, whatever else they hold. -/
def Obligations.BusyReadsShowNoResult : Prop :=
  ∀ (a b ta tb : State) (off : Offset) (size : Nat),
    a.busy = true → b.busy = true → a.cfg = b.cfg → a.ovr = b.ovr → a.ctx = b.ctx → a.err = b.err →
    exec (.rd off size) a = .next ta → exec (.rd off size) b = .next tb →
    ta.replies.head? = tb.replies.head?

/-- R50: the window's 65536 offsets and the platform's addresses BASE .. BASE + 65535 correspond one to one, for
every BASE (its default 0 is the model's choice: log entry 2). -/
def Obligations.WindowAddressesCorrespond : Prop :=
  ∀ (cfg : Config) (off : Offset) (addr : Nat),
    (cfg.offsetOf addr = some off ↔ addr = cfg.addressOf off) ∧
    (cfg.offsetOf addr = none ↔ addr < cfg.base ∨ cfg.base + 65536 ≤ addr)

/-! ### The step -/

/-- A step runs the decoded instruction: the command in flight when its LAT has passed (R244), else, one unit of
LAT later, the transaction at the port; what the step adds around `exec` is said in each clause. The unit of LAT
and the order of a due completion and a transaction are the model's choice (log entry 4). -/
def Obligations.StepRunsTheDecodedInstruction : Prop :=
  ∀ (s : State),
    (∀ w, s.pending = some ⟨w, 0⟩ → step s = exec (decodeCmd w) s) ∧
    (∀ t rest, s.pending = none → s.port = .txn t :: rest →
      step s = exec (decodeTxn t) { s with port := rest }) ∧
    (∀ t rest w n, s.pending = some ⟨w, n + 1⟩ → s.port = .txn t :: rest →
      step s = exec (decodeTxn t) { s with port := rest, pending := some ⟨w, n⟩ }) ∧
    (∀ w n, s.pending = some ⟨w, n + 1⟩ → s.port = [] → step s = .next { s with pending := some ⟨w, n⟩ }) ∧
    (s.pending = none → s.port = [] → step s = .next s)

/-- The word put where the next step takes its instruction runs as the instruction the decoder reads from it; the
core fetches no program (R37), so where that is is the model's choice (log entry 5). -/
def Obligations.PresentedWordRunsNext : Prop :=
  ∀ (s : State) (nbits w : Nat) (i : Instr), decodeTableWord nbits w = some i →
    (nbits ≤ 24 → step (s.withFetchWord nbits w) = exec i s) ∧
    (24 < nbits → step (s.withFetchWord nbits w) =
      exec i { s with ovr := false, err := .ok, pending := some ⟨BitVec.ofNat 32 w, 0⟩ })

/-- 93_implementation_defined.md: no command and no transaction can hang the core; no step stops. -/
def Obligations.EveryStepAnswersNext : Prop :=
  ∀ s : State, ∃ t, step s = .next t

/-- R240: the reset input takes the core to the reset state whatever it was doing, a command in flight included;
a command whose LAT has passed completes in a step of its own before, and nothing of that is left (that order, and
the reset input as an event of the port, are the model's choice: log entries 4 and 5). In the reset state every
register reads 0 but ID, CAP and MBCAP. -/
def Obligations.ResetInputClearsEverything : Prop :=
  (∀ (s : State) (rest : List PortEvent), s.port = .rst :: rest →
    core.run (if ∃ w, s.pending = some ⟨w, 0⟩ then 2 else 1) s = .next
      { cfg := s.cfg
        stream := ⟨⟨⟨0, 0, 0, 0, 0, 0, 0, 0, 0, 0, 0, 0, 0, 0, 0, 0⟩, 0, 0, 0⟩, 0, 0⟩
        ctx := .uninit, t := 0, mlen := 0, key := ⟨0, 0, 0, 0⟩, iv := ⟨0, 0, 0, 0⟩
        msgbuf := List.replicate s.cfg.msgbufWords 0, outbuf := List.replicate s.cfg.capacityWords 0
        wordsOut := 0, tag := 0, ovr := false, err := .ok, pending := none
        latencies := s.latencies, port := rest, replies := s.replies }) ∧
  (∀ (cfg : Config) (r : Reg), cfg.ok = true → r.inMap cfg = true →
    exec (.rd (BitVec.ofNat 16 r.offset) 4) (State.resetOf cfg) =
      .next { State.resetOf cfg with replies := [.read
        (match r with
          | .id => 0x4C465331#32
          | .cap => BitVec.ofNat 32 cfg.capacityWords
          | .mbcap => BitVec.ofNat 32 cfg.msgbufWords
          | _ => 0#32) .okay] })

/-- R244, R246: while a command is in flight nothing but OVR and the port changes, so it completes on the state at
its acceptance, after its LAT and not later, whatever the host does meanwhile short of asserting reset. That LAT
is counted in steps is the model's choice (log entry 4). -/
def Obligations.CommandInFlightCompletesOnFrozenState : Prop :=
  ∀ (s : State) (w : Word) (n : Nat), s.pending = some ⟨w, n⟩ → .rst ∉ s.port.take n →
    ∃ t u : State, core.run n s = .next t ∧
      t = { s with
        pending := some ⟨w, 0⟩, port := s.port.drop n, ovr := t.ovr, replies := t.replies } ∧
      (s.ovr = true → t.ovr = true) ∧
      core.run (n + 1) s = .next u ∧ exec (decodeCmd w) t = .next u ∧ u.pending = none

/-- R248: what a command leaves does not depend on LAT (in steps: log entry 4), for a host that waits. -/
def Obligations.ResultDoesNotDependOnLatency : Prop :=
  ∀ (s : State) (w : Word) (m n : Nat), s.port = [] →
    core.run (m + 1) { s with pending := some ⟨w, m⟩ } = core.run (n + 1) { s with pending := some ⟨w, n⟩ }

/-- R20, R41, R186: a step that completes no command and is no reset leaves the cipher, the accumulator, the
results, the lifecycle state and the parameters as they are. -/
def Obligations.OnlyCommandsTouchTheEngines : Prop :=
  ∀ s t : State, step s = .next t → (∀ w, s.pending ≠ some ⟨w, 0⟩) → s.resetsNext = false →
    t = { s with
      key := t.key, iv := t.iv, msgbuf := t.msgbuf, ovr := t.ovr, err := t.err, pending := t.pending
      latencies := t.latencies, port := s.port.tail, replies := t.replies }

/-- R28, R41: the key staging registers change only by a write to one of them while BUSY = 0, by the completion of
a successful INIT or MACINIT or of DESTROY, or by reset; all but the write leave them 0. -/
def Obligations.KeyRegistersChangeOnlyAsListed : Prop :=
  ∀ s t : State, step s = .next t → t.key ≠ s.key →
    (t.key = Quad.zero ∧ (s.resetsNext = true ∨
      ∃ w, s.pending = some ⟨w, 0⟩ ∧
        (decodeCmd w = .init 16#8 16#8 ∨ decodeCmd w = .macinit 16#8 16#8 ∨ decodeCmd w = .destroy))) ∨
    (s.pending = none ∧ ∃ (off : Offset) (v : Word) (n : Fin 4) (x : BusTxn) (rest : List PortEvent),
      s.port = .txn x :: rest ∧ decodeTxn x = .wr off 4 v ∧ off.toNat = 0x30 + 4 * n.val ∧
      ∀ m : Fin 4, t.key.word m = if m = n then v else s.key.word m)

/-- R6: no step changes a parameter. -/
def Obligations.ParametersNeverChange : Prop :=
  ∀ s t : State, step s = .next t → t.cfg = s.cfg

/-- R201: AllocationFailure is never raised. -/
def Obligations.AllocationFailureNeverRaised : Prop :=
  ∀ s t : State, step s = .next t → t.err = .allocationFailure → s.err = .allocationFailure

/-! ### Invariants -/

/-- The invariant, and that contexts are genuine, hold at reset under every legal setting of the parameters. -/
def Obligations.ResetStateIsSafe : Prop :=
  ∀ cfg : Config, cfg.ok = true → (State.resetOf cfg).Safe

/-- R21, R27, R31, R32, R34, R41, R149, R161, R167, R168, R201: every step keeps the invariant. -/
def Obligations.StepKeepsTheInvariant : Prop :=
  ∀ s t : State, s.Inv → step s = .next t → t.Inv

/-- R27, R142, R164: every step keeps a keystream context that of some (k, iv) and count of words drawn, and an
authentication context that of some (k, iv) and message. -/
def Obligations.StepKeepsContextsGenuine : Prop :=
  ∀ s t : State, s.Inv → s.Genuine → step s = .next t → t.Genuine

/-! ### Every command -/

/-- R204: a command completes with the first of the six checks that fails, in the order of R204, and with OK when
none does. -/
def Obligations.FirstFailingCheckIsReported : Prop :=
  ∀ (i : Instr) (s : State), isCommand i = true →
    ∃ t, exec i s = .next t ∧ t.pending = none ∧ t.err = (firstError i s).getD .ok

/-- R203, R148: a failing command changes only STATUS, and GEN also clears OUTBUF and WORDS_OUT. -/
def Obligations.FailureIsAtomic : Prop :=
  ∀ (i : Instr) (s : State) (e : Err), isCommand i = true → firstError i s = some e →
    ((∀ n, i ≠ .gen n) → exec i s = .next { s with err := e, pending := none }) ∧
    (∀ n, i = .gen n → exec i s = .next { s with
      err := e, pending := none, wordsOut := 0, outbuf := List.replicate s.cfg.capacityWords 0 })

/-- R205: the table of legal commands and its arrows. `legalIn` is the table: GEN only in KS, MACUPD and MACFINAL
only in MAC, every other command everywhere; `ctxAfter` its arrows: INIT to KS, MACINIT to MAC, DESTROY to UNINIT,
MACFINAL to MACDONE, every other success stays. A command that fails leaves the lifecycle state. -/
def Obligations.LifecycleFollowsTheTable : Prop :=
  ∀ (i : Instr) (s : State), isCommand i = true →
    ∃ t, exec i s = .next t ∧ (t.err = .uninitializedContext ↔ legalIn i s.ctx = false) ∧
      (t.err = .ok → t.ctx = ctxAfter i s.ctx) ∧ (t.err ≠ .ok → t.ctx = s.ctx)

/-! ### The field register -/

/-- R101: ADD31 adds residues; its result is the pattern 0 only for 0 + 0, and all-ones when the sum is p. -/
def Obligations.Add31AddsResidues : Prop :=
  ∀ a b : Cell,
    (add31 a b).toNat % prime = (a.toNat + b.toNat) % prime ∧
    (add31 a b = 0 ↔ a = 0 ∧ b = 0) ∧
    (a.toNat + b.toNat = prime → add31 a b = 0x7FFFFFFF#31)

/-- R103: a 31-bit left rotation multiplies the residue by 2^k, and all-ones stays all-ones. -/
def Obligations.RotationMultipliesResidue : Prop :=
  ∀ (c : Cell) (k : Nat), 0 < k → k < 31 →
    (rot31 c k).toNat % prime = c.toNat * 2 ^ k % prime ∧
    rot31 0x7FFFFFFF#31 k = 0x7FFFFFFF#31

/-- R105, R55: cell i is k_i * 2^23 + d_i * 2^8 + iv_i, bytes taken big-endian from KEYn and IVn, d_i the
table of R104; and it lies in [1, 2^31 - 2], which the spec marks as its own inference. -/
def Obligations.KeyLoadingPlacesEveryByte : Prop :=
  ∀ (k iv : Quad) (i : Fin 16),
    let byte (q : Quad) : Nat := (q.word ⟨i.val / 4, by omega⟩).toNat / 2 ^ (24 - 8 * (i.val % 4)) % 256
    let d : Nat := [0x44D7, 0x26BC, 0x626B, 0x135E, 0x5789, 0x35E2, 0x7135, 0x09AF,
      0x4D78, 0x2F13, 0x6BC4, 0x1AF1, 0x5E26, 0x3C4D, 0x789A, 0x47AC].getD i.val 0
    ((keyLoad k iv).cell i).toNat = byte k * 2 ^ 23 + d * 2 ^ 8 + byte iv ∧
    1 ≤ ((keyLoad k iv).cell i).toNat ∧ ((keyLoad k iv).cell i).toNat ≤ 2 ^ 31 - 2

/-- R106: FEEDBACK is the residue of the linear combination of the five taps. -/
def Obligations.FeedbackIsTheLinearCombination : Prop :=
  ∀ l : Lfsr,
    (feedback l).toNat =
      (2 ^ 15 * (l.cell 15).toNat + 2 ^ 17 * (l.cell 13).toNat + 2 ^ 21 * (l.cell 10).toNat
        + 2 ^ 20 * (l.cell 4).toNat + (1 + 2 ^ 8) * (l.cell 0).toNat) % prime

/-- R107, R108, R109, with REP of R102: both advances move every cell down one position and store the new residue
in S[15], a zero residue as ZERO_REP says. -/
def Obligations.AdvancesShiftAndStore : Prop :=
  ∀ (z : ZeroRep) (l : Lfsr) (u : Cell) (x : Nat),
    let stored : Nat := if x = 0 then (if z = .zero then 0 else prime) else x
    (x = ((feedback l).toNat + u.toNat) % prime →
      ((advanceInit z u l).cell 15).toNat = stored ∧
      ∀ i : Fin 15, (advanceInit z u l).cell i.castSucc = l.cell i.succ) ∧
    (x = (feedback l).toNat →
      ((advanceWork z l).cell 15).toNat = stored ∧
      ∀ i : Fin 15, (advanceWork z l).cell i.castSucc = l.cell i.succ)

/-- R110, the spec's own inference from R106 and R109: on residues ADVANCE_WORK is one to one and onto, so a register
that is not all residue 0 never becomes so. -/
def Obligations.WorkAdvanceIsABijectionOnResidues : Prop :=
  ∀ z : ZeroRep,
    (∀ a b : Lfsr, (advanceWork z a).SameResidues (advanceWork z b) ↔ a.SameResidues b) ∧
    (∀ b : Lfsr, ∃ a : Lfsr, (advanceWork z a).SameResidues b) ∧
    (∀ a : Lfsr, (advanceWork z a).SameResidues Lfsr.zero ↔ a.SameResidues Lfsr.zero)

/-- V-LF-9 (R102, R107): the one vector in which ZERO_REP shows. -/
def Obligations.ZeroResidueIsStoredAsZeroRepSays : Prop :=
  let l : Lfsr := { Lfsr.zero with s0 := 0x7F807F00#31, s15 := 1#31 }
  feedback l = 0 ∧
  (advanceWork .zero l).s15 = 0 ∧ x0 (advanceWork .zero l) = 0x00000001#32 ∧
  (advanceWork .allOnes l).s15 = 0x7FFFFFFF#31 ∧ x0 (advanceWork .allOnes l) = 0xFFFF0001#32

/-! ### The nonlinear layer -/

/-- R120: the four words of BR, in numbers; the halves of a cell share bit 15. -/
def Obligations.BitReorganizationTakesTheHalves : Prop :=
  ∀ l : Lfsr,
    let high (i : Fin 16) : Nat := (l.cell i).toNat / 2 ^ 15
    let low (i : Fin 16) : Nat := (l.cell i).toNat % 2 ^ 16
    (x0 l).toNat = high 15 * 2 ^ 16 + low 14 ∧ (x1 l).toNat = low 11 * 2 ^ 16 + high 9 ∧
    (x2 l).toNat = low 7 * 2 ^ 16 + high 5 ∧ (x3 l).toNat = low 2 * 2 ^ 16 + high 0

/-- R121, R122: S0 and S1 are permutations of 0..255. -/
def Obligations.SboxesArePermutations : Prop :=
  Function.Bijective s0 ∧ Function.Bijective s1

/-- R123, R124, R125: SBOX32 byte by byte; L1 and L2 bit by bit, each the XOR of the word and its four left
rotations. -/
def Obligations.SubstitutionAndMixingBitByBit : Prop :=
  (∀ x : Word, (sbox32 x).toNat =
    (s0 (BitVec.ofNat 8 (x.toNat / 2 ^ 24))).toNat * 2 ^ 24 + (s1 (BitVec.ofNat 8 (x.toNat / 2 ^ 16))).toNat * 2 ^ 16
      + (s0 (BitVec.ofNat 8 (x.toNat / 2 ^ 8))).toNat * 2 ^ 8 + (s1 (BitVec.ofNat 8 x.toNat)).toNat) ∧
  (∀ (x : Word) (i : Nat), i < 32 →
    let bit (k : Nat) : Bool := x.getLsbD ((i + 32 - k) % 32)
    (l1 x).getLsbD i = (bit 0 ^^ bit 2 ^^ bit 10 ^^ bit 18 ^^ bit 24) ∧
    (l2 x).getLsbD i = (bit 0 ^^ bit 8 ^^ bit 14 ^^ bit 22 ^^ bit 30))

/-- R126: F's word and the two memory words it leaves, read before either is written; the cells stay. -/
def Obligations.NonlinearFunctionUpdatesBothWords : Prop :=
  ∀ c : Cipher, ∃ a b : Word,
    let w1 : Nat := (c.r1.toNat + (x1 c.lfsr).toNat) % 2 ^ 32
    let w2 : Nat := (c.r2 ^^^ x2 c.lfsr).toNat
    (outF c).toNat = ((x0 c.lfsr ^^^ c.r1).toNat + c.r2.toNat) % 2 ^ 32 ∧
    a.toNat = w1 % 2 ^ 16 * 2 ^ 16 + w2 / 2 ^ 16 ∧
    b.toNat = w2 % 2 ^ 16 * 2 ^ 16 + w1 / 2 ^ 16 ∧
    stepF c = { c with r1 := sbox32 (l1 a), r2 := sbox32 (l2 b) }

/-- R127, the spec's own inference from R123-R126: the corner cases of F. -/
def Obligations.NonlinearFunctionCorners : Prop :=
  (fOut 0#32 0#32 0#32 = 0#32 ∧ fR1 0#32 0#32 0#32 0#32 = 0x3E553E55#32 ∧
    fR2 0#32 0#32 0#32 0#32 = 0x3E553E55#32) ∧
  (fOut 0xFFFFFFFF#32 1#32 0#32 = 0#32 ∧ fR1 0xFFFFFFFF#32 1#32 0#32 0#32 = 0xEEF24755#32 ∧
    fR2 0xFFFFFFFF#32 1#32 0#32 0#32 = 0x7DEF23A9#32) ∧
  (fOut 0x80000000#32 0x80000000#32 0#32 = 0#32 ∧
    fR1 0x80000000#32 0x80000000#32 0x80000000#32 0#32 = 0x5B63B1AE#32 ∧
    fR2 0x80000000#32 0x80000000#32 0x80000000#32 0#32 = 0x3E553E55#32)

/-! ### Keystream -/

/-- R140: 32 rounds of BR, F and the advance that folds W >> 1, from the loaded cells with R1 = R2 = 0; then one
BR and F that is neither emitted nor folded. -/
def Obligations.InitializeIsThirtyTwoRoundsAndPriming : Prop :=
  ∀ (z : ZeroRep) (k iv : Quad), ∃ c : Nat → Cipher,
    c 0 = ⟨keyLoad k iv, 0, 0, 0⟩ ∧
    (∀ n, n < 32 →
      (c (n + 1)).r1 = (stepF (c n)).r1 ∧ (c (n + 1)).r2 = (stepF (c n)).r2 ∧
      (∀ i : Fin 15, (c (n + 1)).lfsr.cell i.castSucc = (c n).lfsr.cell i.succ) ∧
      let x : Nat := ((feedback (c n).lfsr).toNat + (outF (c n)).toNat / 2) % prime
      ((c (n + 1)).lfsr.cell 15).toNat = if x = 0 then (if z = .zero then 0 else prime) else x) ∧
    (keyedCipher z k iv).lfsr = (c 32).lfsr ∧
    (keyedCipher z k iv).r1 = (stepF (c 32)).r1 ∧ (keyedCipher z k iv).r2 = (stepF (c 32)).r2

/-- V-INIT-1 (R140): the all-zero key and IV, after the 32 rounds and after the priming step. -/
def Obligations.InitializeVector : Prop :=
  let c := initRounds .zero 32 (loadedCipher Quad.zero Quad.zero)
  c.lfsr = ⟨0x7CE15B8B#31, 0x747CA0C4#31, 0x6259DD0B#31, 0x47A94C2B#31, 0x3A89C82E#31, 0x32B433FC#31, 0x231EA13F#31,
    0x31711E42#31, 0x4CCCE955#31, 0x3FB6071E#31, 0x161D3512#31, 0x7114B136#31, 0x5154D452#31, 0x78C69A74#31,
    0x4F26BA6B#31, 0x3E1B8D6A#31⟩ ∧
  c.r1 = 0x14CFD44C#32 ∧ c.r2 = 0x8C6DE800#32 ∧
  (keyedCipher .zero Quad.zero Quad.zero).r1 = 0x3512BF50#32 ∧
  (keyedCipher .zero Quad.zero Quad.zero).r2 = 0xA0920453#32

/-- R141: NEXTWORD advances, runs BR and F, returns W ⊕ X3 and counts the word modulo 2^64; n calls count n. -/
def Obligations.EveryWordAdvancesAndIsCounted : Prop :=
  ∀ (z : ZeroRep) (c : Cipher),
    (∃ a : Cipher, a.lfsr = advanceWork z c.lfsr ∧ a.r1 = c.r1 ∧ a.r2 = c.r2 ∧
      nextWord z c = outF a ^^^ x3 a.lfsr ∧
      (afterWord z c).lfsr = a.lfsr ∧ (afterWord z c).r1 = (stepF a).r1 ∧ (afterWord z c).r2 = (stepF a).r2) ∧
    (∀ n, (afterWords z n c).ksidx.toNat = (c.ksidx.toNat + n) % 2 ^ 64)

/-- V-KS-1, V-KS-2, V-KS-3 of the source (R141, R142). -/
def Obligations.KeystreamVectors : Prop :=
  let ones : Quad := ⟨0xFFFFFFFF#32, 0xFFFFFFFF#32, 0xFFFFFFFF#32, 0xFFFFFFFF#32⟩
  let k : Quad := ⟨0x3D4C4BE9#32, 0x6A82FDAE#32, 0xB58F641D#32, 0xB17B455B#32⟩
  let iv : Quad := ⟨0x84319AA8#32, 0xDE6915CA#32, 0x1F6BDA6B#32, 0xFBD8C766#32⟩
  (keystreamWord .zero Quad.zero Quad.zero 0 = 0x27BEDE74#32 ∧
    keystreamWord .zero Quad.zero Quad.zero 1 = 0x018082DA#32) ∧
  (keystreamWord .allOnes ones ones 0 = 0x0657CFA0#32 ∧ keystreamWord .allOnes ones ones 1 = 0x7096398B#32) ∧
  (keystreamWord .zero k iv 0 = 0x14F1C272#32 ∧ keystreamWord .zero k iv 1 = 0x3279C419#32)

/-- R145: INIT, every length, every state: the two length errors in their order, and the fresh keystream context
of the bytes in KEY0..KEY3 and IV0..IV3. The record says what stays: CFG, MSGBUF, OVR and the port. -/
def Obligations.InitStartsAFreshKeystream : Prop :=
  ∀ (s : State) (klen ivlen : Byte),
    (klen.toNat ≠ 16 → exec (.init klen ivlen) s = .next { s with err := .invalidKeyLength, pending := none }) ∧
    (klen.toNat = 16 → ivlen.toNat ≠ 16 →
      exec (.init klen ivlen) s = .next { s with err := .invalidIvLength, pending := none }) ∧
    (klen.toNat = 16 → ivlen.toNat = 16 → ∃ t : State, exec (.init klen ivlen) s = .next t ∧
      t.KsTracks s.key s.iv 0 ∧ t.stream.cipher.ksidx = 0 ∧
      t = { s with
        stream := ⟨t.stream.cipher, 0, 0⟩, ctx := .ks, t := 0, mlen := 0, key := Quad.zero, iv := Quad.zero
        outbuf := List.replicate s.cfg.capacityWords 0, wordsOut := 0, tag := 0, err := .ok, pending := none })

/-- R146: a successful GEN puts the next N keystream words in OUTBUF, clears its rest and moves KSIDX on by N; in
the context of (k, iv) they are KS(n), KS(n+1), .... Nothing else changes but STATUS. -/
def Obligations.GenWritesTheNextWords : Prop :=
  ∀ (s : State) (n : BitVec 28), s.ctx = .ks → n.toNat ≤ s.cfg.capacityWords →
    ∃ t : State, exec (.gen n) s = .next t ∧
      t = { s with
        stream := { s.stream with cipher := t.stream.cipher }
        outbuf := t.outbuf, wordsOut := t.wordsOut, err := .ok, pending := none } ∧
      t.wordsOut.toNat = n.toNat ∧ t.outbuf.length = s.cfg.capacityWords ∧
      t.stream.cipher = afterWords s.cfg.zeroRep n.toNat s.stream.cipher ∧
      t.stream.cipher.ksidx.toNat = (s.stream.cipher.ksidx.toNat + n.toNat) % 2 ^ 64 ∧
      (∀ j, t.outbuf.getD j 0 =
        if j < n.toNat then nextWord s.cfg.zeroRep (afterWords s.cfg.zeroRep j s.stream.cipher) else 0) ∧
      (∀ k iv drawn, s.KsTracks k iv drawn → t.KsTracks k iv (drawn + n.toNat) ∧
        ∀ j, j < n.toNat → t.outbuf.getD j 0 = keystreamWord s.cfg.zeroRep k iv (drawn + j))

/-- R148: a GEN that fails draws no word; it clears OUTBUF and WORDS_OUT. -/
def Obligations.FailingGenDrawsNothing : Prop :=
  ∀ (s : State) (n : BitVec 28), s.ctx ≠ .ks ∨ s.cfg.capacityWords < n.toNat →
    exec (.gen n) s = .next { s with
      err := if s.ctx = .ks then .capacityExceeded else .uninitializedContext
      pending := none, wordsOut := 0, outbuf := List.replicate s.cfg.capacityWords 0 }

/-- R143: truncation and concatenation. GEN n then GEN m give the words one GEN n+m gives, and leave the same
generator. -/
def Obligations.GenTruncatesAndConcatenates : Prop :=
  ∀ (s a b c : State) (m n mn : BitVec 28), s.ctx = .ks → mn.toNat = n.toNat + m.toNat →
    mn.toNat ≤ s.cfg.capacityWords →
    exec (.gen n) s = .next a → exec (.gen m) a = .next b → exec (.gen mn) s = .next c →
    c.outbuf.take n.toNat = a.outbuf.take n.toNat ∧
    (c.outbuf.drop n.toNat).take m.toNat = b.outbuf.take m.toNat ∧
    c.stream = b.stream

/-- R144 and R149: NOP writes only STATUS; DESTROY clears every piece of state in every CTX. -/
def Obligations.NopAndDestroyComplete : Prop :=
  ∀ s : State,
    exec .nop s = .next { s with err := .ok, pending := none } ∧
    ∃ t : State, exec .destroy s = .next t ∧
      (∀ i : Fin 16, t.stream.cipher.lfsr.cell i = 0) ∧ t.stream.cipher.r1 = 0 ∧ t.stream.cipher.r2 = 0 ∧
      t.stream.cipher.ksidx = 0 ∧ t.stream.kbuf0 = 0 ∧ t.stream.kbuf1 = 0 ∧ t.t = 0 ∧ t.mlen = 0 ∧
      (∀ n : Fin 4, t.key.word n = 0 ∧ t.iv.word n = 0) ∧
      (∀ m, t.msgbuf.getD m 0 = 0) ∧ t.msgbuf.length = s.cfg.msgbufWords ∧
      (∀ j, t.outbuf.getD j 0 = 0) ∧ t.outbuf.length = s.cfg.capacityWords ∧
      t.wordsOut = 0 ∧ t.tag = 0 ∧ t.ctx = .uninit ∧ t.err = .ok ∧ t.pending = none ∧
      t.cfg = s.cfg ∧ t.ovr = s.ovr ∧ t.latencies = s.latencies ∧ t.port = s.port ∧ t.replies = s.replies

/-- R241, the spec's own inference from R149, R240 and R243: after `exec DESTROY` with no write during BUSY the
whole state equals the reset state, whatever LAT is. That LAT is counted in steps, taken from a list and 0 when the
list is used up, so that the run is lat + 2 steps, is the model's choice (log entry 4). The polls are left out: a
read changes only the replies (ReadAnswersAsTheMapSays) and lets LAT pass as an idle step does
(CommandInFlightCompletesOnFrozenState). -/
def Obligations.DestroyLeavesTheResetState : Prop :=
  ∀ s : State, s.pending = none → s.port = [.txn ⟨0x10004#17, 4, 0x30000000#32⟩] →
    core.run (s.latencies.headD 0 + 2) s = .next { State.resetOf s.cfg with
      latencies := s.latencies.tail, replies := .wrote .okay :: s.replies }

/-! ### Authentication -/

/-- R165: MACINIT, every length, every state; the context of the bytes in KEY0..KEY3 and IV0..IV3 with the empty
message, no word drawn. -/
def Obligations.MacinitStartsAFreshMessage : Prop :=
  ∀ (s : State) (klen ivlen : Byte),
    (klen.toNat ≠ 16 → exec (.macinit klen ivlen) s = .next { s with err := .invalidKeyLength, pending := none }) ∧
    (klen.toNat = 16 → ivlen.toNat ≠ 16 →
      exec (.macinit klen ivlen) s = .next { s with err := .invalidIvLength, pending := none }) ∧
    (klen.toNat = 16 → ivlen.toNat = 16 → ∃ t : State, exec (.macinit klen ivlen) s = .next t ∧
      t.MacTracks s.key s.iv [] ∧ t.stream.cipher.ksidx = 0 ∧
      t = { s with
        stream := ⟨t.stream.cipher, 0, 0⟩, ctx := .mac, t := 0, mlen := 0, key := Quad.zero, iv := Quad.zero
        outbuf := List.replicate s.cfg.capacityWords 0, wordsOut := 0, tag := 0, err := .ok, pending := none })

/-- R163, R166: a successful MACUPD adds the first N bits of MSGBUF to the message of its context and changes T,
the generator with its buffer, MLEN and STATUS; a chunk of zero bits draws no word and leaves T. -/
def Obligations.MacupdAddsItsBits : Prop :=
  ∀ (s : State) (n : BitVec 28), s.ctx = .mac → n.toNat ≤ 32 * s.cfg.msgbufWords →
    s.mlen.toNat + n.toNat < 2 ^ 64 →
    ∃ t : State, exec (.macupd n) s = .next t ∧
      t = { s with stream := t.stream, t := t.t, mlen := t.mlen, err := .ok, pending := none } ∧
      t.mlen.toNat = s.mlen.toNat + n.toNat ∧
      ((∀ i, i < n.toNat → msgBit s.msgbuf i = false) → t.stream = s.stream ∧ t.t = s.t) ∧
      (∀ k iv m, s.MacTracks k iv m → t.MacTracks k iv (m ++ chunkBits s.msgbuf n.toNat))

/-- R160, R167: a successful MACFINAL writes TAGFN of the message into TAG, wipes the cells, R1, R2, T and KBUF, and
leaves KSIDX = ceil(L/32) + 2 and MLEN. -/
def Obligations.MacfinalWritesTheTag : Prop :=
  ∀ s : State, s.ctx = .mac →
    ∃ t : State, exec .macfinal s = .next t ∧
      t = { s with
        stream := ⟨⟨Lfsr.zero, 0, 0, t.stream.cipher.ksidx⟩, 0, 0⟩, ctx := .macdone, t := 0, tag := t.tag
        err := .ok, pending := none } ∧
      (∀ k iv m, s.MacTracks k iv m →
        t.tag = tagFn s.cfg.zeroRep k iv m ∧ t.stream.cipher.ksidx.toNat = (m.length + 31) / 32 + 2)

/-- R164, the spec's own inference from R160-R167: chunk invariance. Whatever chunks a message is cut into,
MACINIT, MACUPD of each and MACFINAL leave
TAG = TAGFN(k, iv, M) and MLEN = |M|. -/
def Obligations.ChunksDoNotShowInTheTag : Prop :=
  ∀ (s s1 : State) (cs : List Chunk), exec (.macinit 16#8 16#8) s = .next s1 →
    (∀ c ∈ cs, c.n.toNat ≤ 32 * s.cfg.msgbufWords) → (messageOf cs).length < 2 ^ 64 →
    ∃ s2 t : State, feedChunks cs s1 = some s2 ∧ s2.t = tagSum s.cfg.zeroRep s.key s.iv (messageOf cs) ∧
      exec .macfinal s2 = .next t ∧ t.err = .ok ∧
      t.tag = tagFn s.cfg.zeroRep s.key s.iv (messageOf cs) ∧ t.mlen.toNat = (messageOf cs).length

/-- V-MAC-1, V-MAC-D1, V-MAC-D3 (R160): tags of the all-zero key and IV. -/
def Obligations.TagVectors : Prop :=
  tagFn .zero Quad.zero Quad.zero (List.replicate 8 false) = 0x390A91B7#32 ∧
  tagFn .zero Quad.zero Quad.zero [] = 0x263E5CAE#32 ∧
  tagFn .zero Quad.zero Quad.zero [true] = 0xEF17872A#32

/-- R161: ENSURE is its loop, and after it the two newest words cover the window, in the context of (k, iv). -/
def Obligations.WindowReadsTheKeystream : Prop :=
  ∀ (z : ZeroRep) (st : Stream),
    (∀ j, j + 1 < 2 ^ 64 →
      ensure z j st = if st.cipher.ksidx.toNat ≤ j then ensure z j (draw z st) else st) ∧
    (∀ (s : State) (k iv : Quad) (m : List Bool) (n : Nat), s.MacTracks k iv m → m.length ≤ n → n < 2 ^ 64 →
      window s.cfg.zeroRep n s.stream = kwin s.cfg.zeroRep k iv n)

/-! ### Byte orders and host scripts -/

/-- R12, R56, R162: bit i of a message packed into MSGBUF is bit 7 - (i mod 8) of its byte floor(i/8). -/
def Obligations.MessageBitsAreMsbFirst : Prop :=
  ∀ (bs : List Byte) (i : Nat), i < 8 * bs.length →
    msgBit (packBytes bs) i = (bs.getD (i / 8) 0).getLsbD (7 - i % 8)

/-- R54, R57: byte 4j + b of the keystream, or byte b of a tag, is bits [31-8b : 24-8b] of its word. -/
def Obligations.OutputBytesAreBigEndian : Prop :=
  ∀ (ws : List Word) (j b : Nat), j < ws.length → b < 4 →
    ((keystreamBytes ws).getD (4 * j + b) 0).toNat = (ws.getD j 0).toNat / 2 ^ (24 - 8 * b) % 2 ^ 8

/-- R88, R55: the scripts `key` and `iv` from an idle core put their bytes in the staging registers and do nothing
else. -/
def Obligations.KeyScriptsFillTheStagingRegisters : Prop :=
  ∀ (s : State) (k iv : Quad), s.pending = none →
    ∃ t : State, perform (keyEvents k ++ ivEvents iv) s = some t ∧
      t = { s with key := k, iv := iv, port := [], replies := t.replies } ∧
      t.replies = List.replicate 8 (.wrote .okay) ++ s.replies
end

