-- ==== Sys2Proof/Laws/Arith.lean ====
section
/-! SUPPORT. The field register's arithmetic, on numbers modulo p = 2^31 - 1 (R100-R103). -/

namespace Sys2Proof.Machine

theorem prime_eq : prime = 2147483647 := rfl

theorem cell_le (c : Cell) : c.toNat ≤ prime := by
  have h := c.isLt
  rw [prime_eq]; omega

/-- ADD31 on numbers: one end-around carry. -/
theorem add31_toNat (a b : Cell) :
    (add31 a b).toNat = if a.toNat + b.toNat < 2 ^ 31 then a.toNat + b.toNat else a.toNat + b.toNat - prime := by
  have ha := a.isLt
  have hb := b.isLt
  rw [prime_eq]
  simp only [add31, BitVec.toNat_add, BitVec.extractLsb'_toNat, BitVec.toNat_setWidth,
    Nat.shiftRight_eq_div_pow]
  split <;> omega

theorem add31_mod (a b : Cell) : (add31 a b).toNat % prime = (a.toNat + b.toNat) % prime := by
  have ha := a.isLt
  have hb := b.isLt
  rw [add31_toNat, prime_eq]
  split <;> omega

theorem residue_toNat (c : Cell) : (residue c).toNat = c.toNat % prime := by
  have hc := c.isLt
  unfold residue
  split
  · next h => subst h; decide
  · next h =>
    have : c.toNat ≠ 2 ^ 31 - 1 := fun e => h (BitVec.eq_of_toNat_eq (by rw [e]; rfl))
    rw [prime_eq]; omega

theorem residue_ne_allOnes (c : Cell) : residue c ≠ BitVec.allOnes 31 := by
  unfold residue
  split
  · decide
  · assumption

theorem rot31_toNat (c : Cell) (k : Nat) (hk : 0 < k) (hk' : k < 31) :
    (rot31 c k).toNat = c.toNat % 2 ^ (31 - k) * 2 ^ k + c.toNat / 2 ^ (31 - k) := by
  have hc := c.isLt
  unfold rot31
  rw [BitVec.rotateLeft_def, Nat.mod_eq_of_lt hk']
  rw [BitVec.toNat_or, BitVec.toNat_shiftLeft, BitVec.toNat_ushiftRight, Nat.shiftRight_eq_div_pow,
    Nat.shiftLeft_eq]
  have e : (2 : Nat) ^ 31 = 2 ^ (31 - k) * 2 ^ k := by rw [← Nat.pow_add]; congr 1; omega
  rw [e, Nat.mul_mod_mul_right]
  rw [Nat.mul_comm _ (2 ^ k), ← Nat.two_pow_add_eq_or_of_lt]
  rw [Nat.div_lt_iff_lt_mul (by positivity), Nat.mul_comm, ← e]
  exact hc

/-- Rotation multiplies the residue by 2^k (R103). -/
theorem rot31_mod (c : Cell) (k : Nat) (hk : 0 < k) (hk' : k < 31) :
    (rot31 c k).toNat % prime = c.toNat * 2 ^ k % prime := by
  rw [rot31_toNat c k hk hk']
  have e : (2 : Nat) ^ 31 = 2 ^ (31 - k) * 2 ^ k := by rw [← Nat.pow_add]; congr 1; omega
  have h := Nat.mod_add_div c.toNat (2 ^ (31 - k))
  have p31 : (2 : Nat) ^ 31 = prime + 1 := by decide
  conv_rhs => rw [← h]
  rw [Nat.add_mul, Nat.mul_right_comm, ← e, p31, Nat.add_one_mul, ← Nat.add_assoc,
    Nat.add_right_comm, Nat.add_mul_mod_self_left]

theorem rep_eq_of_ne (z : ZeroRep) (v : Cell) (h : v ≠ 0) : rep z v = v := if_neg h

/-- REP keeps the residue (R102). -/
theorem rep_mod (z : ZeroRep) (v : Cell) : (rep z v).toNat % prime = v.toNat % prime := by
  unfold rep
  split
  · next h => subst h; cases z <;> decide
  · rfl

/-- FEEDBACK on numbers (R106). -/
theorem feedback_toNat (l : Lfsr) :
    (feedback l).toNat =
      (2 ^ 15 * l.s15.toNat + 2 ^ 17 * l.s13.toNat + 2 ^ 21 * l.s10.toNat + 2 ^ 20 * l.s4.toNat
        + (1 + 2 ^ 8) * l.s0.toNat) % prime := by
  unfold feedback
  rw [residue_toNat, add31_mod, Nat.add_mod, add31_mod, Nat.add_mod (add31 _ _).toNat, add31_mod,
    Nat.add_mod (add31 _ _).toNat, add31_mod, Nat.add_mod (add31 _ _).toNat, add31_mod,
    rot31_mod _ 15, rot31_mod _ 17, rot31_mod _ 21, rot31_mod _ 20,
    Nat.add_mod l.s0.toNat, rot31_mod _ 8] <;> try decide
  simp only [← Nat.add_mod]
  congr 1
  ring

end Sys2Proof.Machine
end

