-- ==== Sys2Proof/Laws/Decode.lean ====
section
/-! SUPPORT. Command words in parts: a word is its OPC and the 28 bits below it (R80), the rows of the table in
terms of those parts (R83), and the decoder's cases. -/

namespace Sys2Proof

theorem append_inj {m n : Nat} (a c : BitVec m) (b d : BitVec n) : a ++ b = c ++ d ↔ a = c ∧ b = d := by
  constructor
  · intro h
    have h1 := congrArg (BitVec.extractLsb' n m) h
    have h2 := congrArg (BitVec.extractLsb' 0 n) h
    simpa [BitVec.extractLsb'_append_eq_left, BitVec.extractLsb'_append_eq_right] using And.intro h1 h2
  · rintro ⟨rfl, rfl⟩; rfl

theorem word_eq_opc (w : Word) : w = opcField w ++ reservedZ w := by
  apply BitVec.eq_of_getLsbD_eq
  intro i hi
  simp only [opcField, reservedZ, BitVec.getLsbD_append, BitVec.getLsbD_extractLsb']
  by_cases h : i < 28
  · simp [h]
  · simp [h, show i - 28 < 4 by omega, show 28 + (i - 28) = i by omega]

theorem reservedZ_eq (w : Word) : reservedZ w = reservedK w ++ w.extractLsb' 0 16 := by
  apply BitVec.eq_of_getLsbD_eq
  intro i hi
  simp only [reservedZ, reservedK, BitVec.getLsbD_append, BitVec.getLsbD_extractLsb']
  by_cases h : i < 16
  · simp [hi, h]
  · simp [hi, h, show i - 16 < 12 by omega, show 16 + (i - 16) = i by omega]

theorem lengths_eq (w : Word) : w.extractLsb' 0 16 = klenField w ++ ivlenField w := by
  apply BitVec.eq_of_getLsbD_eq
  intro i hi
  simp only [klenField, ivlenField, BitVec.getLsbD_append, BitVec.getLsbD_extractLsb']
  by_cases h : i < 8
  · simp [hi, h]
  · simp [hi, h, show i - 8 < 8 by omega, show 8 + (i - 8) = i by omega]

/-! The fields as numbers (R82). -/

theorem opcField_toNat (w : Word) : (opcField w).toNat = w.toNat / 2 ^ 28 := by
  have := w.isLt
  simp [opcField, Nat.shiftRight_eq_div_pow]
  omega

theorem reservedZ_toNat (w : Word) : (reservedZ w).toNat = w.toNat % 2 ^ 28 := by
  simp [reservedZ]

theorem reservedK_toNat (w : Word) : (reservedK w).toNat = w.toNat / 2 ^ 16 % 2 ^ 12 := by
  simp [reservedK, Nat.shiftRight_eq_div_pow]

theorem klenField_toNat (w : Word) : (klenField w).toNat = w.toNat / 2 ^ 8 % 2 ^ 8 := by
  simp [klenField, Nat.shiftRight_eq_div_pow]

theorem ivlenField_toNat (w : Word) : (ivlenField w).toNat = w.toNat % 2 ^ 8 := by
  simp [ivlenField]

theorem countField_toNat (w : Word) : (countField w).toNat = w.toNat % 2 ^ 28 := by
  simp [countField]

/-! The rows of the table, one by one. -/

theorem holds_append (m b : BitVec 4) (m' b' : BitVec 28) (w : Word) :
    Row.holds ⟨m ++ m', b ++ b'⟩ w =
      (decide (opcField w &&& m = b) && decide (reservedZ w &&& m' = b')) := by
  unfold Row.holds
  conv_lhs => rw [word_eq_opc w]
  rw [BitVec.and_append, Bool.eq_iff_iff, Bool.and_eq_true, decide_eq_true_eq, decide_eq_true_eq, beq_iff_eq]
  exact append_inj _ _ _ _

theorem reservedK_mask (w : Word) : reservedZ w &&& 0xFFF0000#28 = 0 ↔ reservedK w = 0 := by
  have h : reservedK w &&& 0xFFF#12 = reservedK w := BitVec.and_allOnes
  have e : (reservedK w ++ w.extractLsb' 0 16) &&& (0xFFF#12 ++ 0#16) = (0#12 ++ 0#16) ↔ reservedK w = 0 := by
    rw [BitVec.and_append, h, BitVec.and_zero, append_inj]
    simp
  rw [reservedZ_eq w]
  exact e

/-- A row of format Z: one word. -/
theorem rowZ_holds (o : BitVec 4) (w : Word) :
    Row.holds ⟨0xFFFFFFFF#32, o ++ 0#28⟩ w = (decide (opcField w = o) && decide (reservedZ w = 0)) := by
  have h := holds_append 0xF#4 o 0xFFFFFFF#28 0#28 w
  rwa [show opcField w &&& 0xF#4 = opcField w from BitVec.and_allOnes,
    show reservedZ w &&& 0xFFFFFFF#28 = reservedZ w from BitVec.and_allOnes] at h

/-- A row of format K: OPC, and the twelve reserved bits 0. -/
theorem rowK_holds (o : BitVec 4) (w : Word) :
    Row.holds ⟨0xFFFF0000#32, o ++ 0#28⟩ w = (decide (opcField w = o) && decide (reservedK w = 0)) := by
  have h := holds_append 0xF#4 o 0xFFF0000#28 0#28 w
  rw [show opcField w &&& 0xF#4 = opcField w from BitVec.and_allOnes] at h
  exact h.trans (congrArg _ (decide_eq_decide.mpr (reservedK_mask w)))

/-- A row of format N: OPC alone. -/
theorem rowN_holds (o : BitVec 4) (w : Word) :
    Row.holds ⟨0xF0000000#32, o ++ 0#28⟩ w = decide (opcField w = o) := by
  have h := holds_append 0xF#4 o 0#28 0#28 w
  rw [show opcField w &&& 0xF#4 = opcField w from BitVec.and_allOnes, BitVec.and_zero] at h
  simpa using h

/-- Which rows a word belongs to, in the table's order. -/
theorem commandRows_holds (w : Word) :
    commandRows.map (·.holds w) =
      [decide (opcField w = 0) && decide (reservedZ w = 0), decide (opcField w = 1) && decide (reservedK w = 0),
       decide (opcField w = 2), decide (opcField w = 3) && decide (reservedZ w = 0),
       decide (opcField w = 4) && decide (reservedK w = 0), decide (opcField w = 5),
       decide (opcField w = 6) && decide (reservedZ w = 0)] := by
  have h0 := rowZ_holds 0#4 w
  have h1 := rowK_holds 1#4 w
  have h2 := rowN_holds 2#4 w
  have h3 := rowZ_holds 3#4 w
  have h4 := rowK_holds 4#4 w
  have h5 := rowN_holds 5#4 w
  have h6 := rowZ_holds 6#4 w
  exact congr (congrArg _ h0) (congr (congrArg _ h1) (congr (congrArg _ h2) (congr (congrArg _ h3)
    (congr (congrArg _ h4) (congr (congrArg _ h5) (congrArg (· :: []) h6))))))

theorem legalWord_eq (w : Word) : legalWord w = (commandRows.map (·.holds w)).any id := by
  simp [legalWord]

/-- The decoder's cases: a word is one of the seven rows, or illegal. -/
theorem decodeCmd_cases (w : Word) :
    (w = 0#32 ∧ decodeCmd w = .nop) ∨
    (opcField w = 1 ∧ reservedK w = 0 ∧ decodeCmd w = .init (klenField w) (ivlenField w)) ∨
    (opcField w = 2 ∧ decodeCmd w = .gen (countField w)) ∨
    (w = 0x30000000#32 ∧ decodeCmd w = .destroy) ∨
    (opcField w = 4 ∧ reservedK w = 0 ∧ decodeCmd w = .macinit (klenField w) (ivlenField w)) ∨
    (opcField w = 5 ∧ decodeCmd w = .macupd (countField w)) ∨
    (w = 0x60000000#32 ∧ decodeCmd w = .macfinal) ∨
    (legalWord w = false ∧ decodeCmd w = .illegal w) := by
  have hw := word_eq_opc w
  rw [legalWord_eq, commandRows_holds]
  unfold decodeCmd
  generalize opcField w = o at hw ⊢
  have ho : o = 0 ∨ o = 1 ∨ o = 2 ∨ o = 3 ∨ o = 4 ∨ o = 5 ∨ o = 6 ∨ 7 ≤ o.toNat := by
    clear hw; revert o; decide
  rcases ho with rfl | rfl | rfl | rfl | rfl | rfl | rfl | ho
  · by_cases h : reservedZ w = 0#28
    · exact .inl ⟨by rw [hw, h]; rfl, by simp [h]⟩
    · simp [h]
  · by_cases h : reservedK w = 0#12 <;> simp [h]
  · simp
  · by_cases h : reservedZ w = 0#28
    · exact .inr (.inr (.inr (.inl ⟨by rw [hw, h]; rfl, by simp [h]⟩)))
    · simp [h]
  · by_cases h : reservedK w = 0#12 <;> simp [h]
  · simp
  · by_cases h : reservedZ w = 0#28
    · exact .inr (.inr (.inr (.inr (.inr (.inr (.inl ⟨by rw [hw, h]; rfl, by simp [h]⟩))))))
    · simp [h]
  · have hne : ∀ b : BitVec 4, b.toNat < 7 → o ≠ b := by rintro b hb rfl; omega
    refine .inr (.inr (.inr (.inr (.inr (.inr (.inr ⟨?_, ?_⟩))))))
    · simp [hne]
    · split <;> first | rfl | omega

/-- A descriptor is its bit 16 and its offset (R81). -/
theorem desc_eq (d : BitVec 17) : d = BitVec.ofBool (d.getLsbD 16) ++ d.extractLsb' 0 16 := by
  apply BitVec.eq_of_getLsbD_eq
  intro i hi
  simp only [BitVec.getLsbD_append, BitVec.getLsbD_extractLsb', BitVec.getLsbD_ofBool]
  by_cases h : i < 16
  · simp [h]
  · simp [show i = 16 by omega]

end Sys2Proof
end

