-- ==== Sys2Proof/Laws/Generator.lean ====
section
/-! SUPPORT. The generator: its words and its counter compose (R143), its cells stay in range (R21), and the
keystream buffer holds what R27 and R161 say. -/

namespace Sys2Proof.Machine

/-! Words and counter. -/

@[simp] theorem words_length (z : ZeroRep) (n : Nat) (c : Cipher) : (words z n c).length = n := by
  induction n generalizing c with
  | zero => rfl
  | succ n ih => simp [words, ih]

theorem afterWords_add (z : ZeroRep) (m n : Nat) (c : Cipher) :
    afterWords z (m + n) c = afterWords z n (afterWords z m c) := by
  induction m generalizing c with
  | zero => rw [Nat.zero_add]; rfl
  | succ m ih => rw [Nat.succ_add]; exact ih _

theorem afterWords_succ (z : ZeroRep) (n : Nat) (c : Cipher) :
    afterWords z (n + 1) c = afterWord z (afterWords z n c) :=
  afterWords_add z n 1 c

theorem words_add (z : ZeroRep) (m n : Nat) (c : Cipher) :
    words z (m + n) c = words z m c ++ words z n (afterWords z m c) := by
  induction m generalizing c with
  | zero => rw [Nat.zero_add]; rfl
  | succ m ih => rw [Nat.succ_add]; exact congrArg _ (ih _)

theorem words_getD (z : ZeroRep) (n j : Nat) (c : Cipher) (d : Word) (h : j < n) :
    (words z n c).getD j d = nextWord z (afterWords z j c) := by
  induction n generalizing j c with
  | zero => omega
  | succ n ih =>
    cases j with
    | zero => rfl
    | succ j => exact ih j _ (by omega)

@[simp] theorem afterWord_ksidx (z : ZeroRep) (c : Cipher) : (afterWord z c).ksidx = c.ksidx + 1#64 := rfl

theorem afterWords_ksidx (z : ZeroRep) (n : Nat) (c : Cipher) :
    (afterWords z n c).ksidx = c.ksidx + BitVec.ofNat 64 n := by
  induction n generalizing c with
  | zero => simp [afterWords]
  | succ n ih =>
    rw [afterWords, ih, afterWord_ksidx]
    apply BitVec.eq_of_toNat_eq
    simp only [BitVec.toNat_add, BitVec.toNat_ofNat]
    omega

@[simp] theorem stepF_ksidx (c : Cipher) : (stepF c).ksidx = c.ksidx := rfl

@[simp] theorem stepF_lfsr (c : Cipher) : (stepF c).lfsr = c.lfsr := rfl

/-- The last of n + 1 rounds. -/
theorem initRounds_succ (z : ZeroRep) (n : Nat) (c : Cipher) :
    initRounds z (n + 1) c = initRound z (initRounds z n c) := by
  induction n generalizing c with
  | zero => rfl
  | succ n ih => exact ih _

/-- What one initialization round stores in S[15], on residues (R108). -/
theorem initRound_mod (z : ZeroRep) (c : Cipher) :
    (initRound z c).lfsr.s15.toNat % prime = ((feedback c.lfsr).toNat + (outF c).toNat / 2) % prime := by
  have h : (initRound z c).lfsr.s15 = rep z (residue (add31 (feedback c.lfsr) (foldWord (outF c)))) := rfl
  have hw : (foldWord (outF c)).toNat = (outF c).toNat / 2 := by
    have := (outF c).isLt
    simp only [foldWord, BitVec.extractLsb'_toNat, Nat.shiftRight_eq_div_pow]
    omega
  rw [h, rep_mod, residue_toNat, add31_mod, Nat.mod_mod, hw]

/-- The priming step changes only R1 and R2 (R140). -/
theorem keyedCipher_parts (z : ZeroRep) (k iv : Quad) :
    (keyedCipher z k iv).lfsr = (initRounds z 32 (loadedCipher k iv)).lfsr ∧
    (keyedCipher z k iv).r1 = (stepF (initRounds z 32 (loadedCipher k iv))).r1 ∧
    (keyedCipher z k iv).r2 = (stepF (initRounds z 32 (loadedCipher k iv))).r2 := by
  unfold keyedCipher
  generalize initRounds z 32 (loadedCipher k iv) = c
  exact ⟨rfl, rfl, rfl⟩

theorem initRounds_ksidx (z : ZeroRep) (n : Nat) (c : Cipher) : (initRounds z n c).ksidx = c.ksidx := by
  induction n generalizing c with
  | zero => rfl
  | succ n ih => rw [initRounds, ih]; rfl

@[simp] theorem keyedCipher_ksidx (z : ZeroRep) (k iv : Quad) : (keyedCipher z k iv).ksidx = 0#64 := by
  rw [keyedCipher, stepF_ksidx, initRounds_ksidx]; rfl

/-- While the 64-bit counter has not wrapped, it is the number of words drawn (R23). -/
theorem afterWords_keyed_ksidx (z : ZeroRep) (k iv : Quad) (n : Nat) (h : n < 2 ^ 64) :
    (afterWords z n (keyedCipher z k iv)).ksidx.toNat = n := by
  rw [afterWords_ksidx, keyedCipher_ksidx, BitVec.zero_add, BitVec.toNat_ofNat, Nat.mod_eq_of_lt h]

/-! Ranges of the cells. -/

/-- The cells of a register are all in range (R21). -/
def Lfsr.InRange (z : ZeroRep) (l : Lfsr) : Prop :=
  ∀ i : Fin 16, cellInRange z (l.cell i) = true

theorem Lfsr.inRange_iff (z : ZeroRep) (l : Lfsr) :
    l.InRange z ↔ (cellInRange z l.s0 ∧ cellInRange z l.s1 ∧ cellInRange z l.s2 ∧ cellInRange z l.s3) ∧
      (cellInRange z l.s4 ∧ cellInRange z l.s5 ∧ cellInRange z l.s6 ∧ cellInRange z l.s7) ∧
      (cellInRange z l.s8 ∧ cellInRange z l.s9 ∧ cellInRange z l.s10 ∧ cellInRange z l.s11) ∧
      (cellInRange z l.s12 ∧ cellInRange z l.s13 ∧ cellInRange z l.s14 ∧ cellInRange z l.s15) := by
  constructor
  · intro h
    exact ⟨⟨h 0, h 1, h 2, h 3⟩, ⟨h 4, h 5, h 6, h 7⟩, ⟨h 8, h 9, h 10, h 11⟩, ⟨h 12, h 13, h 14, h 15⟩⟩
  · rintro ⟨⟨_, _, _, _⟩, ⟨_, _, _, _⟩, ⟨_, _, _, _⟩, ⟨_, _, _, _⟩⟩ i
    fin_cases i <;> assumption

theorem rep_inRange (z : ZeroRep) (v : Cell) (h : v ≠ BitVec.allOnes 31) : cellInRange z (rep z v) = true := by
  unfold rep
  split
  · cases z <;> decide
  · next h' => cases z <;> simp_all [cellInRange]

theorem shift_inRange {z : ZeroRep} {l : Lfsr} (h : l.InRange z) {x : Cell} (hx : x ≠ BitVec.allOnes 31) :
    (shift z x l).InRange z := by
  rw [Lfsr.inRange_iff] at h ⊢
  have hr := rep_inRange z x hx
  obtain ⟨⟨_, _, _, _⟩, ⟨_, _, _, _⟩, ⟨_, _, _, _⟩, ⟨_, _, _, _⟩⟩ := h
  simp only [shift]
  refine ⟨⟨?_, ?_, ?_, ?_⟩, ⟨?_, ?_, ?_, ?_⟩, ⟨?_, ?_, ?_, ?_⟩, ⟨?_, ?_, ?_, ?_⟩⟩ <;> assumption

theorem advanceWork_inRange {z : ZeroRep} {l : Lfsr} (h : l.InRange z) : (advanceWork z l).InRange z :=
  shift_inRange h (residue_ne_allOnes _)

theorem advanceInit_inRange {z : ZeroRep} {l : Lfsr} (h : l.InRange z) (u : Cell) :
    (advanceInit z u l).InRange z :=
  shift_inRange h (residue_ne_allOnes _)

/-- A loaded cell holds d_i in its middle, and no d_i is 0 or 0x7FFF (R21, R105). -/
theorem loadedCell_pad (k iv : Quad) (i : Fin 16) : (loadedCell k iv i).extractLsb' 8 15 = pad i := by
  simp only [loadedCell]
  generalize k.byte i = a
  generalize pad i = d
  generalize iv.byte i = b
  apply BitVec.eq_of_getLsbD_eq
  intro j hj
  rw [BitVec.getLsbD_extractLsb']
  rw [BitVec.getLsbD_append, BitVec.getLsbD_append]
  have h1 : ¬ (8 + j < 8) := by omega
  have h2 : 8 + j - 8 = j := by omega
  simp [hj]

theorem loadedCell_inRange (z : ZeroRep) (k iv : Quad) (i : Fin 16) :
    cellInRange z (loadedCell k iv i) = true := by
  have h := loadedCell_pad k iv i
  cases z <;> simp only [cellInRange, bne_iff_ne, ne_eq] <;> intro e <;> rw [e] at h <;>
    (revert h; fin_cases i <;> decide)

theorem keyLoad_inRange (z : ZeroRep) (k iv : Quad) : (keyLoad k iv).InRange z := by
  intro i
  have h := loadedCell_inRange z k iv i
  fin_cases i <;> exact h

theorem initRounds_inRange {z : ZeroRep} (n : Nat) {c : Cipher} (h : c.lfsr.InRange z) :
    (initRounds z n c).lfsr.InRange z := by
  induction n generalizing c with
  | zero => exact h
  | succ n ih => exact ih (advanceInit_inRange h _)

theorem keyedCipher_inRange (z : ZeroRep) (k iv : Quad) : (keyedCipher z k iv).lfsr.InRange z := by
  rw [keyedCipher, stepF_lfsr]
  exact initRounds_inRange 32 (keyLoad_inRange z k iv)

theorem afterWords_inRange {z : ZeroRep} (n : Nat) {c : Cipher} (h : c.lfsr.InRange z) :
    (afterWords z n c).lfsr.InRange z := by
  induction n generalizing c with
  | zero => exact h
  | succ n ih => exact ih (advanceWork_inRange h)

/-! The keystream buffer. -/

theorem drawN_cipher (z : ZeroRep) (n : Nat) (st : Stream) :
    (drawN z n st).cipher = afterWords z n st.cipher := by
  induction n generalizing st with
  | zero => rfl
  | succ n ih => exact ih _

theorem drawN_succ (z : ZeroRep) (n : Nat) (st : Stream) : drawN z (n + 1) st = draw z (drawN z n st) := by
  induction n generalizing st with
  | zero => rfl
  | succ n ih => exact ih _

/-- ENSURE(j) leaves KSIDX = max(KSIDX, j + 1). -/
theorem ensure_ksidx (z : ZeroRep) (j : Nat) (st : Stream) (h : j + 1 < 2 ^ 64) :
    (ensure z j st).cipher.ksidx.toNat = max st.cipher.ksidx.toNat (j + 1) := by
  rw [ensure, drawN_cipher, afterWords_ksidx, BitVec.toNat_add, BitVec.toNat_ofNat]
  have := st.cipher.ksidx.isLt
  omega

/-- ENSURE is the loop of R161: it draws one word and goes on while KSIDX ≤ j. -/
theorem ensure_unfold (z : ZeroRep) (j : Nat) (st : Stream) (h : j + 1 < 2 ^ 64) :
    ensure z j st = if st.cipher.ksidx.toNat ≤ j then ensure z j (draw z st) else st := by
  have hk := st.cipher.ksidx.isLt
  split
  · next hle =>
    have e : (draw z st).cipher.ksidx.toNat = st.cipher.ksidx.toNat + 1 := by
      simp only [draw, afterWord_ksidx, BitVec.toNat_add, BitVec.toNat_ofNat]; omega
    have e2 : j + 1 - st.cipher.ksidx.toNat = (j + 1 - (st.cipher.ksidx.toNat + 1)) + 1 := by omega
    rw [ensure, ensure, e, e2]; rfl
  · next hgt => rw [ensure, Nat.sub_eq_zero_of_le (by omega)]; rfl

/-- The stream is that of (k, iv): its cipher state has drawn KSIDX words and the buffer is as R27 says. -/
structure Stream.Holds (z : ZeroRep) (k iv : Quad) (st : Stream) : Prop where
  cipher : st.cipher = afterWords z st.cipher.ksidx.toNat (keyedCipher z k iv)
  kbuf0  : st.kbuf0 = bufferedWord z k iv st.cipher.ksidx.toNat 0
  kbuf1  : st.kbuf1 = bufferedWord z k iv st.cipher.ksidx.toNat 1

theorem Stream.Holds.keyed (z : ZeroRep) (k iv : Quad) : Stream.Holds z k iv ⟨keyedCipher z k iv, 0, 0⟩ := by
  constructor <;> simp [bufferedWord, afterWords]

theorem Stream.Holds.draw {z : ZeroRep} {k iv : Quad} {st : Stream} (h : Stream.Holds z k iv st)
    (hk : st.cipher.ksidx.toNat + 1 < 2 ^ 64) : Stream.Holds z k iv (Machine.draw z st) := by
  have e : (Machine.draw z st).cipher.ksidx.toNat = st.cipher.ksidx.toNat + 1 := by
    simp only [Machine.draw, afterWord_ksidx, BitVec.toNat_add, BitVec.toNat_ofNat]; omega
  constructor
  · rw [e, afterWords_succ, ← h.cipher]; rfl
  · rw [e]; simp only [Machine.draw, h.kbuf1, bufferedWord]
  · rw [e]
    simp only [Machine.draw, bufferedWord]
    rw [if_neg (by omega), keystreamWord]
    conv_lhs => rw [h.cipher]
    congr 2

theorem Stream.Holds.drawN {z : ZeroRep} {k iv : Quad} (n : Nat) {st : Stream} (h : Stream.Holds z k iv st)
    (hk : st.cipher.ksidx.toNat + n < 2 ^ 64) : Stream.Holds z k iv (Machine.drawN z n st) := by
  induction n generalizing st with
  | zero => exact h
  | succ n ih =>
    have e : (Machine.draw z st).cipher.ksidx.toNat = st.cipher.ksidx.toNat + 1 := by
      simp only [Machine.draw, afterWord_ksidx, BitVec.toNat_add, BitVec.toNat_ofNat]; omega
    exact ih (h.draw (by omega)) (by omega)

theorem Stream.Holds.ensure {z : ZeroRep} {k iv : Quad} {st : Stream} (h : Stream.Holds z k iv st) (j : Nat)
    (hj : j + 1 < 2 ^ 64) : Stream.Holds z k iv (Machine.ensure z j st) := by
  have := st.cipher.ksidx.isLt
  exact h.drawN _ (by omega)

/-- KW(j) is KS(j) for the two newest words (R161). -/
theorem Stream.Holds.kw {z : ZeroRep} {k iv : Quad} {st : Stream} (h : Stream.Holds z k iv st) {j : Nat}
    (h1 : j < st.cipher.ksidx.toNat) (h2 : st.cipher.ksidx.toNat ≤ j + 2) :
    Machine.kw st j = keystreamWord z k iv j := by
  unfold Machine.kw
  split
  · next e =>
    rw [h.kbuf0, bufferedWord, if_neg (by omega)]; congr 1; omega
  · next e =>
    rw [if_pos (by omega), h.kbuf1, bufferedWord, if_neg (by omega)]; congr 1; omega

/-! The window. -/

theorem wordOfBits_step (bs : List Bool) (w : Word) (i : Nat) (hi : i < 32) :
    (bs.foldl (fun (w : Word) b => (w <<< 1) ||| (BitVec.ofBool b).setWidth 32) w).getLsbD i =
      if i < bs.length then bs.getD (bs.length - 1 - i) false else w.getLsbD (i - bs.length) := by
  induction bs generalizing w with
  | nil => simp
  | cons b bs ih =>
    rw [List.foldl_cons, ih]
    simp only [List.length_cons]
    by_cases h1 : i < bs.length
    · rw [if_pos h1, if_pos (by omega)]
      have : bs.length + 1 - 1 - i = (bs.length - 1 - i) + 1 := by omega
      rw [this, List.getD_cons_succ]
    · rw [if_neg h1]
      by_cases h2 : i = bs.length
      · subst h2
        simp
      · rw [if_neg (by omega)]
        have h3 : i - bs.length = (i - (bs.length + 1)) + 1 := by omega
        rw [h3]
        simp
        omega

/-- Bit 31 - b of KWIN(n) is keystream bit n + b (R11). -/
theorem kwin_getLsbD (z : ZeroRep) (k iv : Quad) (n i : Nat) (hi : i < 32) :
    (kwin z k iv n).getLsbD i = keystreamBit z k iv (n + (31 - i)) := by
  rw [kwin, wordOfBits, wordOfBits_step _ _ _ hi]
  simp only [List.length_map, List.length_range, hi, if_true]
  rw [List.getD_eq_getElem?_getD, List.getElem?_map, List.getElem?_range (by omega)]
  rfl

theorem kwin_word (z : ZeroRep) (k iv : Quad) (n : Nat) (h : n % 32 = 0) :
    kwin z k iv n = keystreamWord z k iv (n / 32) := by
  apply BitVec.eq_of_getLsbD_eq
  intro i hi
  rw [kwin_getLsbD _ _ _ _ _ hi, keystreamBit]
  have h1 : (n + (31 - i)) / 32 = n / 32 := by omega
  have h2 : 31 - (n + (31 - i)) % 32 = i := by omega
  rw [h1, h2]

theorem kwin_join (z : ZeroRep) (k iv : Quad) (n : Nat) :
    kwin z k iv n = (keystreamWord z k iv (n / 32) <<< (n % 32)) |||
      (keystreamWord z k iv (n / 32 + 1) >>> (32 - n % 32)) := by
  apply BitVec.eq_of_getLsbD_eq
  intro i hi
  rw [kwin_getLsbD _ _ _ _ _ hi, keystreamBit, BitVec.getLsbD_or, BitVec.getLsbD_shiftLeft,
    BitVec.getLsbD_ushiftRight]
  by_cases hr : i < n % 32
  · have h1 : (n + (31 - i)) / 32 = n / 32 + 1 := by omega
    have h2 : 31 - (n + (31 - i)) % 32 = 32 - n % 32 + i := by omega
    rw [h1, h2]; simp [hr]
  · have h1 : (n + (31 - i)) / 32 = n / 32 := by omega
    have h2 : 31 - (n + (31 - i)) % 32 = i - n % 32 := by omega
    rw [h1, h2, BitVec.getLsbD_of_ge (keystreamWord z k iv (n / 32 + 1)) _ (by omega)]
    simp [hi, hr]

/-- WINDOW(n) returns KWIN(n) when no word past the window's second has been drawn (R161). -/
theorem Stream.Holds.window {z : ZeroRep} {k iv : Quad} {st : Stream} (h : Stream.Holds z k iv st) {n : Nat}
    (hn : n < 2 ^ 64) (hk : st.cipher.ksidx.toNat ≤ n / 32 + 2) :
    Machine.window z n st = kwin z k iv n := by
  have he := ensure_ksidx z (n / 32 + 1) st (by omega)
  have hh := h.ensure (n / 32 + 1) (by omega)
  have e : (Machine.ensure z (n / 32 + 1) st).cipher.ksidx.toNat = n / 32 + 2 := by omega
  have k0 := hh.kw (j := n / 32) (by omega) (by omega)
  have k1 := hh.kw (j := n / 32 + 1) (by omega) (by omega)
  simp only [Machine.window, afterWindow, k0, k1]
  split
  · next h0 => exact (kwin_word z k iv n h0).symm
  · next h0 => exact (kwin_join z k iv n).symm

end Sys2Proof.Machine
end

