-- ==== Sys2Proof/Laws/State.lean ====
section
/-! SUPPORT. What each named update of the state does to each field, so that no proof unfolds a record update. -/

namespace Sys2Proof.Machine

variable (s : State)

@[simp] theorem State.complete_cfg (e : Err) : (s.complete e).cfg = s.cfg := rfl
@[simp] theorem State.complete_stream (e : Err) : (s.complete e).stream = s.stream := rfl
@[simp] theorem State.complete_ctx (e : Err) : (s.complete e).ctx = s.ctx := rfl
@[simp] theorem State.complete_t (e : Err) : (s.complete e).t = s.t := rfl
@[simp] theorem State.complete_mlen (e : Err) : (s.complete e).mlen = s.mlen := rfl
@[simp] theorem State.complete_key (e : Err) : (s.complete e).key = s.key := rfl
@[simp] theorem State.complete_iv (e : Err) : (s.complete e).iv = s.iv := rfl
@[simp] theorem State.complete_msgbuf (e : Err) : (s.complete e).msgbuf = s.msgbuf := rfl
@[simp] theorem State.complete_outbuf (e : Err) : (s.complete e).outbuf = s.outbuf := rfl
@[simp] theorem State.complete_wordsOut (e : Err) : (s.complete e).wordsOut = s.wordsOut := rfl
@[simp] theorem State.complete_tag (e : Err) : (s.complete e).tag = s.tag := rfl
@[simp] theorem State.complete_ovr (e : Err) : (s.complete e).ovr = s.ovr := rfl
@[simp] theorem State.complete_err (e : Err) : (s.complete e).err = e := rfl
@[simp] theorem State.complete_pending (e : Err) : (s.complete e).pending = none := rfl
@[simp] theorem State.complete_latencies (e : Err) : (s.complete e).latencies = s.latencies := rfl
@[simp] theorem State.complete_port (e : Err) : (s.complete e).port = s.port := rfl
@[simp] theorem State.complete_replies (e : Err) : (s.complete e).replies = s.replies := rfl

@[simp] theorem State.raiseErr_cfg (e : Err) : (s.raiseErr e).cfg = s.cfg := rfl
@[simp] theorem State.raiseErr_stream (e : Err) : (s.raiseErr e).stream = s.stream := rfl
@[simp] theorem State.raiseErr_ctx (e : Err) : (s.raiseErr e).ctx = s.ctx := rfl
@[simp] theorem State.raiseErr_t (e : Err) : (s.raiseErr e).t = s.t := rfl
@[simp] theorem State.raiseErr_mlen (e : Err) : (s.raiseErr e).mlen = s.mlen := rfl
@[simp] theorem State.raiseErr_key (e : Err) : (s.raiseErr e).key = s.key := rfl
@[simp] theorem State.raiseErr_iv (e : Err) : (s.raiseErr e).iv = s.iv := rfl
@[simp] theorem State.raiseErr_msgbuf (e : Err) : (s.raiseErr e).msgbuf = s.msgbuf := rfl
@[simp] theorem State.raiseErr_outbuf (e : Err) : (s.raiseErr e).outbuf = s.outbuf := rfl
@[simp] theorem State.raiseErr_wordsOut (e : Err) : (s.raiseErr e).wordsOut = s.wordsOut := rfl
@[simp] theorem State.raiseErr_tag (e : Err) : (s.raiseErr e).tag = s.tag := rfl
@[simp] theorem State.raiseErr_ovr (e : Err) : (s.raiseErr e).ovr = s.ovr := rfl
@[simp] theorem State.raiseErr_err (e : Err) : (s.raiseErr e).err = e := rfl
@[simp] theorem State.raiseErr_pending (e : Err) : (s.raiseErr e).pending = none := rfl
@[simp] theorem State.raiseErr_latencies (e : Err) : (s.raiseErr e).latencies = s.latencies := rfl
@[simp] theorem State.raiseErr_port (e : Err) : (s.raiseErr e).port = s.port := rfl
@[simp] theorem State.raiseErr_replies (e : Err) : (s.raiseErr e).replies = s.replies := rfl

@[simp] theorem State.raiseGen_cfg (e : Err) : (s.raiseGen e).cfg = s.cfg := rfl
@[simp] theorem State.raiseGen_stream (e : Err) : (s.raiseGen e).stream = s.stream := rfl
@[simp] theorem State.raiseGen_ctx (e : Err) : (s.raiseGen e).ctx = s.ctx := rfl
@[simp] theorem State.raiseGen_t (e : Err) : (s.raiseGen e).t = s.t := rfl
@[simp] theorem State.raiseGen_mlen (e : Err) : (s.raiseGen e).mlen = s.mlen := rfl
@[simp] theorem State.raiseGen_key (e : Err) : (s.raiseGen e).key = s.key := rfl
@[simp] theorem State.raiseGen_iv (e : Err) : (s.raiseGen e).iv = s.iv := rfl
@[simp] theorem State.raiseGen_msgbuf (e : Err) : (s.raiseGen e).msgbuf = s.msgbuf := rfl
@[simp] theorem State.raiseGen_outbuf (e : Err) : (s.raiseGen e).outbuf = List.replicate s.cfg.capacityWords 0 := rfl
@[simp] theorem State.raiseGen_wordsOut (e : Err) : (s.raiseGen e).wordsOut = 0 := rfl
@[simp] theorem State.raiseGen_tag (e : Err) : (s.raiseGen e).tag = s.tag := rfl
@[simp] theorem State.raiseGen_ovr (e : Err) : (s.raiseGen e).ovr = s.ovr := rfl
@[simp] theorem State.raiseGen_err (e : Err) : (s.raiseGen e).err = e := rfl
@[simp] theorem State.raiseGen_pending (e : Err) : (s.raiseGen e).pending = none := rfl
@[simp] theorem State.raiseGen_latencies (e : Err) : (s.raiseGen e).latencies = s.latencies := rfl
@[simp] theorem State.raiseGen_port (e : Err) : (s.raiseGen e).port = s.port := rfl
@[simp] theorem State.raiseGen_replies (e : Err) : (s.raiseGen e).replies = s.replies := rfl

@[simp] theorem State.accept_cfg (v : Word) : (s.accept v).cfg = s.cfg := rfl
@[simp] theorem State.accept_stream (v : Word) : (s.accept v).stream = s.stream := rfl
@[simp] theorem State.accept_ctx (v : Word) : (s.accept v).ctx = s.ctx := rfl
@[simp] theorem State.accept_t (v : Word) : (s.accept v).t = s.t := rfl
@[simp] theorem State.accept_mlen (v : Word) : (s.accept v).mlen = s.mlen := rfl
@[simp] theorem State.accept_key (v : Word) : (s.accept v).key = s.key := rfl
@[simp] theorem State.accept_iv (v : Word) : (s.accept v).iv = s.iv := rfl
@[simp] theorem State.accept_msgbuf (v : Word) : (s.accept v).msgbuf = s.msgbuf := rfl
@[simp] theorem State.accept_outbuf (v : Word) : (s.accept v).outbuf = s.outbuf := rfl
@[simp] theorem State.accept_wordsOut (v : Word) : (s.accept v).wordsOut = s.wordsOut := rfl
@[simp] theorem State.accept_tag (v : Word) : (s.accept v).tag = s.tag := rfl
@[simp] theorem State.accept_ovr (v : Word) : (s.accept v).ovr = false := rfl
@[simp] theorem State.accept_err (v : Word) : (s.accept v).err = .ok := rfl
@[simp] theorem State.accept_pending (v : Word) : (s.accept v).pending = some ⟨v, s.latencies.headD 0⟩ := rfl
@[simp] theorem State.accept_latencies (v : Word) : (s.accept v).latencies = s.latencies.tail := rfl
@[simp] theorem State.accept_port (v : Word) : (s.accept v).port = s.port := rfl
@[simp] theorem State.accept_replies (v : Word) : (s.accept v).replies = s.replies := rfl

@[simp] theorem State.freshContext_cfg (c : Ctx) : (s.freshContext c).cfg = s.cfg := rfl
@[simp] theorem State.freshContext_stream (c : Ctx) :
    (s.freshContext c).stream = ⟨keyedCipher s.cfg.zeroRep s.key s.iv, 0, 0⟩ := rfl
@[simp] theorem State.freshContext_ctx (c : Ctx) : (s.freshContext c).ctx = c := rfl
@[simp] theorem State.freshContext_t (c : Ctx) : (s.freshContext c).t = 0 := rfl
@[simp] theorem State.freshContext_mlen (c : Ctx) : (s.freshContext c).mlen = 0 := rfl
@[simp] theorem State.freshContext_key (c : Ctx) : (s.freshContext c).key = Quad.zero := rfl
@[simp] theorem State.freshContext_iv (c : Ctx) : (s.freshContext c).iv = Quad.zero := rfl
@[simp] theorem State.freshContext_msgbuf (c : Ctx) : (s.freshContext c).msgbuf = s.msgbuf := rfl
@[simp] theorem State.freshContext_outbuf (c : Ctx) :
    (s.freshContext c).outbuf = List.replicate s.cfg.capacityWords 0 := rfl
@[simp] theorem State.freshContext_wordsOut (c : Ctx) : (s.freshContext c).wordsOut = 0 := rfl
@[simp] theorem State.freshContext_tag (c : Ctx) : (s.freshContext c).tag = 0 := rfl
@[simp] theorem State.freshContext_ovr (c : Ctx) : (s.freshContext c).ovr = s.ovr := rfl
@[simp] theorem State.freshContext_err (c : Ctx) : (s.freshContext c).err = s.err := rfl
@[simp] theorem State.freshContext_pending (c : Ctx) : (s.freshContext c).pending = s.pending := rfl
@[simp] theorem State.freshContext_latencies (c : Ctx) : (s.freshContext c).latencies = s.latencies := rfl
@[simp] theorem State.freshContext_port (c : Ctx) : (s.freshContext c).port = s.port := rfl
@[simp] theorem State.freshContext_replies (c : Ctx) : (s.freshContext c).replies = s.replies := rfl

@[simp] theorem State.generate_cfg (n : Nat) : (s.generate n).cfg = s.cfg := rfl
@[simp] theorem State.generate_stream (n : Nat) :
    (s.generate n).stream = { s.stream with cipher := afterWords s.cfg.zeroRep n s.stream.cipher } := rfl
@[simp] theorem State.generate_ctx (n : Nat) : (s.generate n).ctx = s.ctx := rfl
@[simp] theorem State.generate_t (n : Nat) : (s.generate n).t = s.t := rfl
@[simp] theorem State.generate_mlen (n : Nat) : (s.generate n).mlen = s.mlen := rfl
@[simp] theorem State.generate_key (n : Nat) : (s.generate n).key = s.key := rfl
@[simp] theorem State.generate_iv (n : Nat) : (s.generate n).iv = s.iv := rfl
@[simp] theorem State.generate_msgbuf (n : Nat) : (s.generate n).msgbuf = s.msgbuf := rfl
@[simp] theorem State.generate_outbuf (n : Nat) :
    (s.generate n).outbuf = words s.cfg.zeroRep n s.stream.cipher ++ List.replicate (s.cfg.capacityWords - n) 0 := rfl
@[simp] theorem State.generate_wordsOut (n : Nat) : (s.generate n).wordsOut = BitVec.ofNat 32 n := rfl
@[simp] theorem State.generate_tag (n : Nat) : (s.generate n).tag = s.tag := rfl
@[simp] theorem State.generate_ovr (n : Nat) : (s.generate n).ovr = s.ovr := rfl
@[simp] theorem State.generate_err (n : Nat) : (s.generate n).err = s.err := rfl
@[simp] theorem State.generate_pending (n : Nat) : (s.generate n).pending = s.pending := rfl
@[simp] theorem State.generate_latencies (n : Nat) : (s.generate n).latencies = s.latencies := rfl
@[simp] theorem State.generate_port (n : Nat) : (s.generate n).port = s.port := rfl
@[simp] theorem State.generate_replies (n : Nat) : (s.generate n).replies = s.replies := rfl

@[simp] theorem State.wipe_cfg : (s.wipe).cfg = s.cfg := rfl
@[simp] theorem State.wipe_stream : (s.wipe).stream = Stream.zero := rfl
@[simp] theorem State.wipe_ctx : (s.wipe).ctx = .uninit := rfl
@[simp] theorem State.wipe_t : (s.wipe).t = 0 := rfl
@[simp] theorem State.wipe_mlen : (s.wipe).mlen = 0 := rfl
@[simp] theorem State.wipe_key : (s.wipe).key = Quad.zero := rfl
@[simp] theorem State.wipe_iv : (s.wipe).iv = Quad.zero := rfl
@[simp] theorem State.wipe_msgbuf : (s.wipe).msgbuf = List.replicate s.cfg.msgbufWords 0 := rfl
@[simp] theorem State.wipe_outbuf : (s.wipe).outbuf = List.replicate s.cfg.capacityWords 0 := rfl
@[simp] theorem State.wipe_wordsOut : (s.wipe).wordsOut = 0 := rfl
@[simp] theorem State.wipe_tag : (s.wipe).tag = 0 := rfl
@[simp] theorem State.wipe_ovr : (s.wipe).ovr = s.ovr := rfl
@[simp] theorem State.wipe_err : (s.wipe).err = s.err := rfl
@[simp] theorem State.wipe_pending : (s.wipe).pending = s.pending := rfl
@[simp] theorem State.wipe_latencies : (s.wipe).latencies = s.latencies := rfl
@[simp] theorem State.wipe_port : (s.wipe).port = s.port := rfl
@[simp] theorem State.wipe_replies : (s.wipe).replies = s.replies := rfl

@[simp] theorem State.update_cfg (n : Nat) : (s.update n).cfg = s.cfg := rfl
@[simp] theorem State.update_stream (n : Nat) :
    (s.update n).stream = (accumulate s.cfg.zeroRep s.msgbuf s.mlen.toNat n ⟨s.t, s.stream⟩).stream := rfl
@[simp] theorem State.update_ctx (n : Nat) : (s.update n).ctx = s.ctx := rfl
@[simp] theorem State.update_t (n : Nat) :
    (s.update n).t = (accumulate s.cfg.zeroRep s.msgbuf s.mlen.toNat n ⟨s.t, s.stream⟩).t := rfl
@[simp] theorem State.update_mlen (n : Nat) : (s.update n).mlen = s.mlen + BitVec.ofNat 64 n := rfl
@[simp] theorem State.update_key (n : Nat) : (s.update n).key = s.key := rfl
@[simp] theorem State.update_iv (n : Nat) : (s.update n).iv = s.iv := rfl
@[simp] theorem State.update_msgbuf (n : Nat) : (s.update n).msgbuf = s.msgbuf := rfl
@[simp] theorem State.update_outbuf (n : Nat) : (s.update n).outbuf = s.outbuf := rfl
@[simp] theorem State.update_wordsOut (n : Nat) : (s.update n).wordsOut = s.wordsOut := rfl
@[simp] theorem State.update_tag (n : Nat) : (s.update n).tag = s.tag := rfl
@[simp] theorem State.update_ovr (n : Nat) : (s.update n).ovr = s.ovr := rfl
@[simp] theorem State.update_err (n : Nat) : (s.update n).err = s.err := rfl
@[simp] theorem State.update_pending (n : Nat) : (s.update n).pending = s.pending := rfl
@[simp] theorem State.update_latencies (n : Nat) : (s.update n).latencies = s.latencies := rfl
@[simp] theorem State.update_port (n : Nat) : (s.update n).port = s.port := rfl
@[simp] theorem State.update_replies (n : Nat) : (s.update n).replies = s.replies := rfl

@[simp] theorem State.finalize_cfg : (s.finalize).cfg = s.cfg := rfl
@[simp] theorem State.finalize_stream :
    (s.finalize).stream = ⟨{ Cipher.zero with ksidx := s.finalStream.cipher.ksidx }, 0, 0⟩ := rfl
@[simp] theorem State.finalize_ctx : (s.finalize).ctx = .macdone := rfl
@[simp] theorem State.finalize_t : (s.finalize).t = 0 := rfl
@[simp] theorem State.finalize_mlen : (s.finalize).mlen = s.mlen := rfl
@[simp] theorem State.finalize_key : (s.finalize).key = s.key := rfl
@[simp] theorem State.finalize_iv : (s.finalize).iv = s.iv := rfl
@[simp] theorem State.finalize_msgbuf : (s.finalize).msgbuf = s.msgbuf := rfl
@[simp] theorem State.finalize_outbuf : (s.finalize).outbuf = s.outbuf := rfl
@[simp] theorem State.finalize_wordsOut : (s.finalize).wordsOut = s.wordsOut := rfl
@[simp] theorem State.finalize_tag : (s.finalize).tag = s.finalTag := rfl
@[simp] theorem State.finalize_ovr : (s.finalize).ovr = s.ovr := rfl
@[simp] theorem State.finalize_err : (s.finalize).err = s.err := rfl
@[simp] theorem State.finalize_pending : (s.finalize).pending = s.pending := rfl
@[simp] theorem State.finalize_latencies : (s.finalize).latencies = s.latencies := rfl
@[simp] theorem State.finalize_port : (s.finalize).port = s.port := rfl
@[simp] theorem State.finalize_replies : (s.finalize).replies = s.replies := rfl

@[simp] theorem State.hardReset_cfg : (s.hardReset).cfg = s.cfg := rfl
@[simp] theorem State.hardReset_stream : (s.hardReset).stream = Stream.zero := rfl
@[simp] theorem State.hardReset_ctx : (s.hardReset).ctx = .uninit := rfl
@[simp] theorem State.hardReset_t : (s.hardReset).t = 0 := rfl
@[simp] theorem State.hardReset_mlen : (s.hardReset).mlen = 0 := rfl
@[simp] theorem State.hardReset_key : (s.hardReset).key = Quad.zero := rfl
@[simp] theorem State.hardReset_iv : (s.hardReset).iv = Quad.zero := rfl
@[simp] theorem State.hardReset_msgbuf : (s.hardReset).msgbuf = List.replicate s.cfg.msgbufWords 0 := rfl
@[simp] theorem State.hardReset_outbuf : (s.hardReset).outbuf = List.replicate s.cfg.capacityWords 0 := rfl
@[simp] theorem State.hardReset_wordsOut : (s.hardReset).wordsOut = 0 := rfl
@[simp] theorem State.hardReset_tag : (s.hardReset).tag = 0 := rfl
@[simp] theorem State.hardReset_ovr : (s.hardReset).ovr = false := rfl
@[simp] theorem State.hardReset_err : (s.hardReset).err = .ok := rfl
@[simp] theorem State.hardReset_pending : (s.hardReset).pending = none := rfl
@[simp] theorem State.hardReset_latencies : (s.hardReset).latencies = s.latencies := rfl
@[simp] theorem State.hardReset_port : (s.hardReset).port = s.port := rfl
@[simp] theorem State.hardReset_replies : (s.hardReset).replies = s.replies := rfl

@[simp] theorem State.answer_cfg (r : Reply) : (s.answer r).cfg = s.cfg := rfl
@[simp] theorem State.answer_stream (r : Reply) : (s.answer r).stream = s.stream := rfl
@[simp] theorem State.answer_ctx (r : Reply) : (s.answer r).ctx = s.ctx := rfl
@[simp] theorem State.answer_t (r : Reply) : (s.answer r).t = s.t := rfl
@[simp] theorem State.answer_mlen (r : Reply) : (s.answer r).mlen = s.mlen := rfl
@[simp] theorem State.answer_key (r : Reply) : (s.answer r).key = s.key := rfl
@[simp] theorem State.answer_iv (r : Reply) : (s.answer r).iv = s.iv := rfl
@[simp] theorem State.answer_msgbuf (r : Reply) : (s.answer r).msgbuf = s.msgbuf := rfl
@[simp] theorem State.answer_outbuf (r : Reply) : (s.answer r).outbuf = s.outbuf := rfl
@[simp] theorem State.answer_wordsOut (r : Reply) : (s.answer r).wordsOut = s.wordsOut := rfl
@[simp] theorem State.answer_tag (r : Reply) : (s.answer r).tag = s.tag := rfl
@[simp] theorem State.answer_ovr (r : Reply) : (s.answer r).ovr = s.ovr := rfl
@[simp] theorem State.answer_err (r : Reply) : (s.answer r).err = s.err := rfl
@[simp] theorem State.answer_pending (r : Reply) : (s.answer r).pending = s.pending := rfl
@[simp] theorem State.answer_latencies (r : Reply) : (s.answer r).latencies = s.latencies := rfl
@[simp] theorem State.answer_port (r : Reply) : (s.answer r).port = s.port := rfl
@[simp] theorem State.answer_replies (r : Reply) : (s.answer r).replies = r :: s.replies := rfl

end Sys2Proof.Machine
end

