-- ==== Sys2Proof/Laws/Mac.lean ====
section
/-! SUPPORT. The accumulator: what ACCUMULATE and the last words of MACFINAL do to a context that tracks a message
(R160-R167). -/

namespace Sys2Proof.Machine

theorem tagSum_nil (z : ZeroRep) (k iv : Quad) : tagSum z k iv [] = 0 := rfl

/-- One more message bit (R160). -/
theorem tagSum_snoc (z : ZeroRep) (k iv : Quad) (m : List Bool) (b : Bool) :
    tagSum z k iv (m ++ [b]) = if b then tagSum z k iv m ^^^ kwin z k iv m.length else tagSum z k iv m := by
  have h : ∀ t : Word,
      (List.range m.length).foldl (fun t i => if (m ++ [b]).getD i false then t ^^^ kwin z k iv i else t) t =
        (List.range m.length).foldl (fun t i => if m.getD i false then t ^^^ kwin z k iv i else t) t := by
    intro t
    apply List.foldl_ext
    intro t i hi
    rw [List.mem_range] at hi
    rw [List.getD_append _ _ _ _ hi]
  rw [tagSum, List.length_append, List.length_singleton, List.range_succ, List.foldl_append, h]
  simp only [List.foldl_cons, List.foldl_nil]
  rw [List.getD_append_right _ _ _ _ le_rfl, Nat.sub_self]
  rfl

/-- What a context that has been given m keeps of it, in the two things ACCUMULATE changes. -/
structure Acc.Tracks (z : ZeroRep) (k iv : Quad) (m : List Bool) (a : Acc) : Prop where
  stream : a.stream.Holds z k iv
  t      : a.t = tagSum z k iv m
  drawn  : a.stream.cipher.ksidx.toNat ≤ (m.length + 31) / 32 + 1

theorem Acc.Tracks.absorb {z : ZeroRep} {k iv : Quad} {m : List Bool} {a : Acc} (h : a.Tracks z k iv m)
    (buf : List Word) {pos i : Nat} (hp : pos + i = m.length) (hl : m.length < 2 ^ 64) :
    (Machine.absorb z buf pos a i).Tracks z k iv (m ++ [msgBit buf i]) := by
  have hd := h.drawn
  unfold Machine.absorb
  split
  · next hb =>
    rw [hb, hp]
    have e := ensure_ksidx z (m.length / 32 + 1) a.stream (by omega)
    refine ⟨h.stream.ensure _ (by omega), ?_, ?_⟩
    · rw [tagSum_snoc, if_pos rfl, ← h.t, h.stream.window hl (by omega)]
    · simp only [afterWindow, List.length_append, List.length_singleton]
      omega
  · next hb =>
    rw [Bool.not_eq_true] at hb
    rw [hb]
    refine ⟨h.stream, ?_, ?_⟩
    · rw [tagSum_snoc, if_neg (by simp)]; exact h.t
    · simp only [List.length_append, List.length_singleton]
      omega

theorem chunkBits_succ (buf : List Word) (n : Nat) : chunkBits buf (n + 1) = chunkBits buf n ++ [msgBit buf n] := by
  simp [chunkBits, List.range_succ]

@[simp] theorem chunkBits_length (buf : List Word) (n : Nat) : (chunkBits buf n).length = n := by
  simp [chunkBits]

theorem accumulate_succ (z : ZeroRep) (buf : List Word) (pos n : Nat) (a : Acc) :
    accumulate z buf pos (n + 1) a = absorb z buf pos (accumulate z buf pos n a) n := by
  simp [accumulate, List.range_succ]

/-- ACCUMULATE(n) on a context that has been given m gives it the chunk's n bits (R163). -/
theorem Acc.Tracks.accumulate {z : ZeroRep} {k iv : Quad} {m : List Bool} {a : Acc} (h : a.Tracks z k iv m)
    (buf : List Word) (n : Nat) (hl : m.length + n ≤ 2 ^ 64) :
    (Machine.accumulate z buf m.length n a).Tracks z k iv (m ++ chunkBits buf n) := by
  induction n with
  | zero => simpa [Machine.accumulate, chunkBits] using h
  | succ n ih =>
    rw [accumulate_succ, chunkBits_succ, ← List.append_assoc]
    have e : (m ++ chunkBits buf n).length = m.length + n := by simp
    exact (ih (by omega)).absorb buf (by omega) (by omega)

/-- The generator keeps its counter ahead of the message by at most R161's two words, whatever it was keyed with. -/
theorem accumulate_drawn (z : ZeroRep) (buf : List Word) (pos n : Nat) (a : Acc)
    (h : a.stream.cipher.ksidx.toNat ≤ (pos + 31) / 32 + 1) (hl : pos + n < 2 ^ 64) :
    (accumulate z buf pos n a).stream.cipher.ksidx.toNat ≤ (pos + n + 31) / 32 + 1 := by
  induction n with
  | zero => exact h
  | succ n ih =>
    have ih := ih (by omega)
    rw [accumulate_succ]
    unfold absorb
    split
    · have e := ensure_ksidx z ((pos + n) / 32 + 1) (accumulate z buf pos n a).stream (by omega)
      simp only [afterWindow]
      omega
    · omega

/-- The cells stay in range through ACCUMULATE (R21). -/
theorem accumulate_inRange {z : ZeroRep} (buf : List Word) (pos n : Nat) {a : Acc}
    (h : a.stream.cipher.lfsr.InRange z) : (accumulate z buf pos n a).stream.cipher.lfsr.InRange z := by
  induction n with
  | zero => exact h
  | succ n ih =>
    rw [accumulate_succ]
    unfold absorb
    split
    · simp only [afterWindow, ensure, drawN_cipher]
      exact afterWords_inRange _ ih
    · exact ih

/-- KSIDX after MACFINAL's last ENSURE (R167): ceil(L/32) + 2. -/
theorem finalStream_ksidx (s : State) (h : s.stream.cipher.ksidx.toNat ≤ (s.mlen.toNat + 31) / 32 + 1) :
    s.finalStream.cipher.ksidx.toNat = (s.mlen.toNat + 31) / 32 + 2 := by
  have hm := s.mlen.isLt
  have h1 := ensure_ksidx s.cfg.zeroRep (s.mlen.toNat / 32 + 1) s.stream (by omega)
  have h2 := ensure_ksidx s.cfg.zeroRep (lastWordIndex s.mlen.toNat)
    (afterWindow s.cfg.zeroRep s.mlen.toNat s.stream) (by rw [lastWordIndex]; omega)
  rw [State.finalStream, h2]
  simp only [afterWindow, lastWordIndex] at h1 ⊢
  omega

theorem State.MacTracks.acc {s : State} {k iv : Quad} {m : List Bool} (h : s.MacTracks k iv m) :
    Acc.Tracks s.cfg.zeroRep k iv m ⟨s.t, s.stream⟩ :=
  ⟨⟨h.cipher, h.kbuf0, h.kbuf1⟩, h.t, h.drawn⟩

end Sys2Proof.Machine
end

