-- ==== Sys2Proof/Laws/PerInstr.lean ====
section
/-! SUPPORT. One fact per instruction about its encoding: the word the encoder gives bears the fixed bits of the
instruction's row of spec/opcode_table.json, and of no other row (R83, R84); a transaction's descriptor bears bit
16 of its row (R81). -/

namespace Sys2Proof.Laws

/-- Where the encoded form must stand: in one row of the table, counted from NOP = 0, in none, or as a
transaction whose bit 16 is given. -/
inductive RowBits.Place where
  | row (n : Nat)
  | noRow
  | write (b : Bool)
  deriving DecidableEq, Repr

def RowBits.placeOf (i : Instr) : RowBits.Place :=
  match i with
  | .nop => .row 0
  | .init _ _ => .row 1
  | .gen _ => .row 2
  | .destroy => .row 3
  | .macinit _ _ => .row 4
  | .macupd _ => .row 5
  | .macfinal => .row 6
  | .illegal _ => .noRow
  | .rd _ _ => .write false
  | .wr _ _ _ => .write true

def RowBits.bearsPlace (h : HostWord) (p : RowBits.Place) : Prop :=
  match p, h with
  | .row n, .cmd w => commandRows.map (·.holds w) = (List.range 7).map (· == n)
  | .noRow, .cmd w => legalWord w = false
  | .write b, .bus t => t.desc.getLsbD 16 = b
  | .row _, .bus _ => False
  | .noRow, .bus _ => False
  | .write _, .cmd _ => False

def RowBits.Statement (i : Instr) : Prop :=
  i.wellFormed = true → RowBits.bearsPlace (encode i) (RowBits.placeOf i)

theorem RowBits.opcField_append (o : BitVec 4) (n : BitVec 28) : opcField (o ++ n) = o :=
  ((append_inj _ _ _ _).mp (word_eq_opc (o ++ n)).symm).1

theorem RowBits.reservedZ_append (o : BitVec 4) (n : BitVec 28) : reservedZ (o ++ n) = n :=
  ((append_inj _ _ _ _).mp (word_eq_opc (o ++ n)).symm).2

theorem RowBits.reservedK_append (o : BitVec 4) (r : BitVec 12) (x : BitVec 16) : reservedK (o ++ (r ++ x)) = r :=
  ((append_inj _ _ _ _).mp
    ((reservedZ_eq (o ++ (r ++ x))).symm.trans (RowBits.reservedZ_append o (r ++ x)))).1

theorem RowBits.append_lengths (o : BitVec 4) (klen ivlen : Byte) :
    (o ++ 0#12 ++ klen ++ ivlen : BitVec 32) = o ++ (0#12 ++ (klen ++ ivlen)) := by
  apply BitVec.eq_of_toNat_eq
  simp only [BitVec.toNat_append, Nat.shiftLeft_or_distrib, ← Nat.shiftLeft_add, Nat.or_assoc]

theorem RowBits.nop : RowBits.Statement .nop := fun _ => rfl

theorem RowBits.init (klen ivlen : Byte) : RowBits.Statement (.init klen ivlen) := fun _ => by
  refine (commandRows_holds _).trans ?_
  rw [RowBits.append_lengths, RowBits.opcField_append, RowBits.reservedK_append]
  simp [List.range_succ]

theorem RowBits.gen (n : BitVec 28) : RowBits.Statement (.gen n) := fun _ => by
  refine (commandRows_holds _).trans ?_
  rw [RowBits.opcField_append]
  simp [List.range_succ]

theorem RowBits.destroy : RowBits.Statement .destroy := fun _ => rfl

theorem RowBits.macinit (klen ivlen : Byte) : RowBits.Statement (.macinit klen ivlen) := fun _ => by
  refine (commandRows_holds _).trans ?_
  rw [RowBits.append_lengths, RowBits.opcField_append, RowBits.reservedK_append]
  simp [List.range_succ]

theorem RowBits.macupd (n : BitVec 28) : RowBits.Statement (.macupd n) := fun _ => by
  refine (commandRows_holds _).trans ?_
  rw [RowBits.opcField_append]
  simp [List.range_succ]

theorem RowBits.macfinal : RowBits.Statement .macfinal := fun _ => rfl

theorem RowBits.illegal (w : Word) : RowBits.Statement (.illegal w) := fun h => by
  show legalWord w = false
  simpa [Instr.wellFormed] using h

theorem RowBits.rd (off : Offset) (size : Nat) : RowBits.Statement (.rd off size) := fun _ => by
  show (0#1 ++ off).getLsbD 16 = false
  rw [BitVec.getLsbD_append]; rfl

theorem RowBits.wr (off : Offset) (size : Nat) (data : Word) : RowBits.Statement (.wr off size data) := fun _ => by
  show (1#1 ++ off).getLsbD 16 = true
  rw [BitVec.getLsbD_append]; rfl

end Sys2Proof.Laws
end

