-- ==== Sys2Proof/Laws/Registers.lean ====
section
/-! SUPPORT. The register map and the staging registers: what an offset reaches (R51, R181, R182), what a write to
one of four registers leaves (R184), the legal parameters (R6). -/

namespace Sys2Proof.Machine

theorem config_ok_iff (c : Config) :
    c.ok = true ↔ 1 ≤ c.capacityWords ∧ c.capacityWords ≤ 4096 ∧ 1 ≤ c.msgbufWords ∧ c.msgbufWords ≤ 64 ∧
      c.base % 65536 = 0 := by
  simp only [Config.ok, Bool.and_eq_true, decide_eq_true_eq, and_assoc]

theorem Reg.offset_mod (r : Reg) : r.offset % 4 = 0 := by
  cases r <;> simp only [Reg.offset] <;> omega

/-- The fixed part of the map, below 0x100. -/
theorem fixedRegAt_eq (a : Nat) (r : Reg) :
    fixedRegAt a = some r ↔ r.offset = a ∧ (∀ m, r ≠ .msgbuf m) ∧ (∀ j, r ≠ .outbuf j) := by
  constructor
  · intro h
    unfold fixedRegAt at h
    split at h <;> first | (injection h with h; subst h; exact ⟨rfl, nofun, nofun⟩) | cases h
  · rintro ⟨rfl, h1, h2⟩
    cases r with
    | key n => fin_cases n <;> rfl
    | iv n => fin_cases n <;> rfl
    | msgbuf m => exact absurd rfl (h1 m)
    | outbuf j => exact absurd rfl (h2 j)
    | _ => rfl

theorem target_eq_some (cfg : Config) (off : Offset) (size : Nat) (r : Reg) :
    target cfg off size = some r ↔ size = 4 ∧ off.toNat % 4 = 0 ∧ regAt cfg off = some r := by
  unfold target aligned32
  by_cases h : size = 4 <;> by_cases h' : off.toNat % 4 = 0 <;> simp [h, h']

theorem target_eq_none (cfg : Config) (off : Offset) (size : Nat) :
    target cfg off size = none ↔ size ≠ 4 ∨ off.toNat % 4 ≠ 0 ∨ regAt cfg off = none := by
  unfold target aligned32
  by_cases h : size = 4 <;> by_cases h' : off.toNat % 4 = 0 <;> simp [h, h']

/-- A write to one of four staging registers, read back. -/
theorem Quad.word_write (q : Quad) (n m : Fin 4) (v : Word) :
    (q.write n v).word m = if m = n then v else q.word m := by
  fin_cases n <;> fin_cases m <;> rfl

/-- STATUS as a number (R34). -/
theorem status_toNat (s : State) :
    s.status.toNat = s.err.code.toNat * 2 ^ 8 + s.ctx.code.toNat * 2 ^ 4 + (if s.ovr then 2 else 0)
      + (if s.busy then 1 else 0) := by
  unfold State.status
  cases s.err <;> cases s.ctx <;> cases s.ovr <;> cases s.busy <;> rfl

end Sys2Proof.Machine
end

