-- ==== Sys2Proof/Laws/Step.lean ====
section
/-! SUPPORT. What each meaning and each step can do, said once: a proof about a step cites these and unfolds nothing. -/

namespace Sys2Proof.Machine

/-! Commands. -/

theorem startContext_eq (s : State) (klen ivlen : Byte) (c : Ctx) :
    (klen ≠ 16#8 ∧ s.startContext klen ivlen c = s.raiseErr .invalidKeyLength) ∨
    (klen = 16#8 ∧ ivlen ≠ 16#8 ∧ s.startContext klen ivlen c = s.raiseErr .invalidIvLength) ∨
    (klen = 16#8 ∧ ivlen = 16#8 ∧ s.startContext klen ivlen c = (s.freshContext c).complete .ok) := by
  unfold State.startContext
  by_cases h1 : klen = 16#8 <;> by_cases h2 : ivlen = 16#8 <;> simp [h1, h2]

theorem execInit_eq (klen ivlen : Byte) (s : State) : execInit klen ivlen s = .next (s.startContext klen ivlen .ks) := rfl

theorem execMacinit_eq (klen ivlen : Byte) (s : State) :
    execMacinit klen ivlen s = .next (s.startContext klen ivlen .mac) := rfl

theorem execGen_eq (n : BitVec 28) (s : State) :
    (s.ctx ≠ .ks ∧ execGen n s = .next (s.raiseGen .uninitializedContext)) ∨
    (s.ctx = .ks ∧ s.cfg.capacityWords < n.toNat ∧ execGen n s = .next (s.raiseGen .capacityExceeded)) ∨
    (s.ctx = .ks ∧ n.toNat ≤ s.cfg.capacityWords ∧ execGen n s = .next ((s.generate n.toNat).complete .ok)) := by
  unfold execGen
  by_cases h1 : s.ctx = .ks
  · by_cases h2 : s.cfg.capacityWords < n.toNat
    · simp [h1, h2]
    · simp [h1, h2, Nat.le_of_not_lt h2]
  · simp [h1]

theorem execMacupd_eq (n : BitVec 28) (s : State) :
    (s.ctx ≠ .mac ∧ execMacupd n s = .next (s.raiseErr .uninitializedContext)) ∨
    (s.ctx = .mac ∧ (32 * s.cfg.msgbufWords < n.toNat ∨ 2 ^ 64 ≤ s.mlen.toNat + n.toNat) ∧
      execMacupd n s = .next (s.raiseErr .capacityExceeded)) ∨
    (s.ctx = .mac ∧ n.toNat ≤ 32 * s.cfg.msgbufWords ∧ s.mlen.toNat + n.toNat < 2 ^ 64 ∧
      execMacupd n s = .next ((s.update n.toNat).complete .ok)) := by
  unfold execMacupd
  by_cases h1 : s.ctx = .mac
  · by_cases h2 : 32 * s.cfg.msgbufWords < n.toNat
    · simp [h1, h2]
    · by_cases h3 : 2 ^ 64 ≤ s.mlen.toNat + n.toNat
      · refine .inr (.inl ⟨h1, .inr h3, ?_⟩)
        rw [if_neg (not_not.mpr h1), if_neg h2, if_pos h3]
      · refine .inr (.inr ⟨h1, by omega, by omega, ?_⟩)
        rw [if_neg (not_not.mpr h1), if_neg h2, if_neg h3]
  · simp [h1]

theorem execMacfinal_eq (s : State) :
    (s.ctx ≠ .mac ∧ execMacfinal s = .next (s.raiseErr .uninitializedContext)) ∨
    (s.ctx = .mac ∧ execMacfinal s = .next (s.finalize.complete .ok)) := by
  unfold execMacfinal
  by_cases h1 : s.ctx = .mac <;> simp [h1]

/-! Transactions. -/

/-- What a write to a register that exists does to the core while BUSY = 0 (R184, R185): accept a command, store
a staging word, or nothing. -/
theorem writeReg_eq (s : State) (r : Reg) (v : Word) :
    (r = .cmd ∧ s.writeReg r v = s.accept v) ∨
    (∃ n, r = .key n ∧ s.writeReg r v = { s with key := s.key.write n v }) ∨
    (∃ n, r = .iv n ∧ s.writeReg r v = { s with iv := s.iv.write n v }) ∨
    (∃ m, r = .msgbuf m ∧ s.writeReg r v = { s with msgbuf := s.msgbuf.set m v }) ∨
    s.writeReg r v = s := by
  cases r <;> simp [State.writeReg]

theorem execWr_eq (off : Offset) (size : Nat) (v : Word) (s : State) :
    (target s.cfg off size = none ∧ execWr off size v s = .next (s.answer (.wrote .error))) ∨
    (∃ r, target s.cfg off size = some r ∧ s.busy = true ∧
      execWr off size v s = .next ({ s with ovr := true }.answer (.wrote .okay))) ∨
    (∃ r, target s.cfg off size = some r ∧ s.busy = false ∧
      execWr off size v s = .next ((s.writeReg r v).answer (.wrote .okay))) := by
  unfold execWr
  cases target s.cfg off size with
  | none => simp
  | some r => cases h : s.busy <;> simp

/-- What a transaction does: it is answered; a write that reaches a register sets OVR while BUSY = 1, and else is
done (R183, R184, R246). -/
theorem exec_txn_eq (x : BusTxn) (s t : State) (h : exec (decodeTxn x) s = .next t) :
    (∃ r, t = s.answer r) ∨
    (∃ off size v r, decodeTxn x = .wr off size v ∧ target s.cfg off size = some r ∧
      ((s.busy = true ∧ t = { s with ovr := true }.answer (.wrote .okay)) ∨
       (s.busy = false ∧ t = (s.writeReg r v).answer (.wrote .okay)))) := by
  cases hx : decodeTxn x with
  | rd off size =>
    rw [hx] at h
    injection h with h
    exact .inl ⟨_, h.symm⟩
  | wr off size v =>
    rw [hx] at h
    rcases execWr_eq off size v s with ⟨_, e⟩ | ⟨r, a, b, e⟩ | ⟨r, a, b, e⟩ <;> rw [exec, e] at h <;>
      injection h with h
    · exact .inl ⟨_, h.symm⟩
    · exact .inr ⟨_, _, _, r, rfl, a, .inl ⟨b, h.symm⟩⟩
    · exact .inr ⟨_, _, _, r, rfl, a, .inr ⟨b, h.symm⟩⟩
  | _ => unfold decodeTxn at hx; split at hx <;> cases hx

/-- The fields a transaction may change. -/
theorem exec_txn_frame (x : BusTxn) (s t : State) (h : exec (decodeTxn x) s = .next t) :
    t = { s with
      key := t.key, iv := t.iv, msgbuf := t.msgbuf, ovr := t.ovr, err := t.err, pending := t.pending
      latencies := t.latencies, replies := t.replies } := by
  rcases exec_txn_eq x s t h with ⟨r, rfl⟩ | ⟨off, size, v, r, _, _, ⟨_, rfl⟩ | ⟨_, rfl⟩⟩
  · rfl
  · rfl
  · rcases writeReg_eq s r v with ⟨_, e⟩ | ⟨n, _, e⟩ | ⟨n, _, e⟩ | ⟨n, _, e⟩ | e <;> rw [e] <;> rfl

/-- What every command leaves alone, and how it ends (R41, R186, R244). -/
theorem exec_cmd_frame (w : Word) (s t : State) (h : exec (decodeCmd w) s = .next t) :
    t.cfg = s.cfg ∧ t.ovr = s.ovr ∧ t.latencies = s.latencies ∧ t.port = s.port ∧ t.replies = s.replies ∧
      t.pending = none ∧ t.err ≠ .allocationFailure := by
  rcases decodeCmd_cases w with ⟨rfl, e⟩ | ⟨_, _, e⟩ | ⟨_, e⟩ | ⟨rfl, e⟩ | ⟨_, _, e⟩ | ⟨_, e⟩ | ⟨rfl, e⟩ | ⟨_, e⟩ <;>
    rw [e] at h
  · injection h with h; subst h; exact ⟨rfl, rfl, rfl, rfl, rfl, rfl, nofun⟩
  · rw [exec, execInit_eq] at h
    injection h with h
    subst h
    rcases startContext_eq s (klenField w) (ivlenField w) .ks with ⟨_, e⟩ | ⟨_, _, e⟩ | ⟨_, _, e⟩ <;> rw [e] <;>
      exact ⟨rfl, rfl, rfl, rfl, rfl, rfl, nofun⟩
  · rw [exec] at h
    rcases execGen_eq (countField w) s with ⟨_, e⟩ | ⟨_, _, e⟩ | ⟨_, _, e⟩ <;> rw [e] at h <;>
      injection h with h <;> subst h <;> exact ⟨rfl, rfl, rfl, rfl, rfl, rfl, nofun⟩
  · injection h with h; subst h; exact ⟨rfl, rfl, rfl, rfl, rfl, rfl, nofun⟩
  · rw [exec, execMacinit_eq] at h
    injection h with h
    subst h
    rcases startContext_eq s (klenField w) (ivlenField w) .mac with ⟨_, e⟩ | ⟨_, _, e⟩ | ⟨_, _, e⟩ <;> rw [e] <;>
      exact ⟨rfl, rfl, rfl, rfl, rfl, rfl, nofun⟩
  · rw [exec] at h
    rcases execMacupd_eq (countField w) s with ⟨_, e⟩ | ⟨_, _, e⟩ | ⟨_, _, _, e⟩ <;> rw [e] at h <;>
      injection h with h <;> subst h <;> exact ⟨rfl, rfl, rfl, rfl, rfl, rfl, nofun⟩
  · rw [exec] at h
    rcases execMacfinal_eq s with ⟨_, e⟩ | ⟨_, e⟩ <;> rw [e] at h <;> injection h with h <;> subst h <;>
      exact ⟨rfl, rfl, rfl, rfl, rfl, rfl, nofun⟩
  · injection h with h; subst h; exact ⟨rfl, rfl, rfl, rfl, rfl, rfl, nofun⟩

/-! Every instruction answers a next state: no command and no transaction can hang the core. -/

theorem exec_next (i : Instr) (s : State) : ∃ t, exec i s = .next t := by
  cases i with
  | nop => exact ⟨_, rfl⟩
  | init klen ivlen => exact ⟨_, rfl⟩
  | gen n => rcases execGen_eq n s with ⟨_, h⟩ | ⟨_, _, h⟩ | ⟨_, _, h⟩ <;> exact ⟨_, h⟩
  | destroy => exact ⟨_, rfl⟩
  | macinit klen ivlen => exact ⟨_, rfl⟩
  | macupd n => rcases execMacupd_eq n s with ⟨_, h⟩ | ⟨_, _, h⟩ | ⟨_, _, _, h⟩ <;> exact ⟨_, h⟩
  | macfinal => rcases execMacfinal_eq s with ⟨_, h⟩ | ⟨_, h⟩ <;> exact ⟨_, h⟩
  | illegal w => exact ⟨_, rfl⟩
  | rd off size => exact ⟨_, rfl⟩
  | wr off size v =>
    rcases execWr_eq off size v s with ⟨_, h⟩ | ⟨_, _, _, h⟩ | ⟨_, _, _, h⟩ <;> exact ⟨_, h⟩

/-! The step. -/

/-- What taking the next event of the port can be. -/
theorem takeEvent_eq (s : State) :
    (s.port = [] ∧ s.takeEvent = .quiet s) ∨
    (∃ t rest, s.port = .txn t :: rest ∧ s.takeEvent = .run (decodeTxn t) { s with port := rest }) ∨
    (∃ rest, s.port = .rst :: rest ∧ s.takeEvent = .quiet { s with port := rest }.hardReset) := by
  unfold State.takeEvent
  cases s.port with
  | nil => simp
  | cons e rest => cases e <;> simp

/-- The state a step works on when no command completes: one unit of LAT has passed, and `rest` is left at the
port. -/
def State.took (s : State) (rest : List PortEvent) : State :=
  { s with pending := s.pending.map (fun p => ⟨p.word, p.left - 1⟩), port := rest }

@[simp] theorem State.took_cfg (s : State) (p : List PortEvent) : (s.took p).cfg = s.cfg := rfl
@[simp] theorem State.took_stream (s : State) (p : List PortEvent) : (s.took p).stream = s.stream := rfl
@[simp] theorem State.took_ctx (s : State) (p : List PortEvent) : (s.took p).ctx = s.ctx := rfl
@[simp] theorem State.took_t (s : State) (p : List PortEvent) : (s.took p).t = s.t := rfl
@[simp] theorem State.took_mlen (s : State) (p : List PortEvent) : (s.took p).mlen = s.mlen := rfl
@[simp] theorem State.took_key (s : State) (p : List PortEvent) : (s.took p).key = s.key := rfl
@[simp] theorem State.took_iv (s : State) (p : List PortEvent) : (s.took p).iv = s.iv := rfl
@[simp] theorem State.took_msgbuf (s : State) (p : List PortEvent) : (s.took p).msgbuf = s.msgbuf := rfl
@[simp] theorem State.took_outbuf (s : State) (p : List PortEvent) : (s.took p).outbuf = s.outbuf := rfl
@[simp] theorem State.took_wordsOut (s : State) (p : List PortEvent) : (s.took p).wordsOut = s.wordsOut := rfl
@[simp] theorem State.took_tag (s : State) (p : List PortEvent) : (s.took p).tag = s.tag := rfl
@[simp] theorem State.took_ovr (s : State) (p : List PortEvent) : (s.took p).ovr = s.ovr := rfl
@[simp] theorem State.took_err (s : State) (p : List PortEvent) : (s.took p).err = s.err := rfl
@[simp] theorem State.took_latencies (s : State) (p : List PortEvent) : (s.took p).latencies = s.latencies := rfl
@[simp] theorem State.took_port (s : State) (p : List PortEvent) : (s.took p).port = p := rfl
@[simp] theorem State.took_replies (s : State) (p : List PortEvent) : (s.took p).replies = s.replies := rfl
@[simp] theorem State.took_busy (s : State) (p : List PortEvent) : (s.took p).busy = s.busy := by
  simp [State.busy, State.took]

/-- The four things a step can be: the completion of the command in flight, an idle clock, a transaction, or
the reset input (R210, R244). -/
theorem step_cases (s : State) :
    (∃ w, s.pending = some ⟨w, 0⟩ ∧ step s = exec (decodeCmd w) s) ∨
    ((∀ w, s.pending ≠ some ⟨w, 0⟩) ∧
      ((s.port = [] ∧ step s = .next (s.took [])) ∨
      (∃ t rest, s.port = .txn t :: rest ∧ step s = exec (decodeTxn t) (s.took rest)) ∨
      (∃ rest, s.port = .rst :: rest ∧ step s = .next (s.took rest).hardReset))) := by
  unfold step State.nextAction State.took
  rcases hp : s.pending with _ | ⟨w, n⟩
  · refine .inr ⟨by simp, ?_⟩
    rcases takeEvent_eq s with ⟨hq, h⟩ | ⟨t, rest, hq, h⟩ | ⟨rest, hq, h⟩
    · exact .inl ⟨hq, by simp only [h, Option.map_none]; rw [← hp, ← hq]⟩
    · exact .inr (.inl ⟨t, rest, hq, by simp only [h, Option.map_none]; rw [← hp]⟩)
    · exact .inr (.inr ⟨rest, hq, by simp only [h, Option.map_none]; rw [← hp]⟩)
  · cases n with
    | zero => exact .inl ⟨w, rfl, rfl⟩
    | succ n =>
      refine .inr ⟨by simp, ?_⟩
      rcases takeEvent_eq { s with pending := some ⟨w, n⟩ } with ⟨hq, h⟩ | ⟨t, rest, hq, h⟩ | ⟨rest, hq, h⟩
      · exact .inl ⟨hq, by simp only [h, Option.map_some]; rw [← show s.port = [] from hq]; rfl⟩
      · exact .inr (.inl ⟨t, rest, hq, by simp only [h, Option.map_some]; rfl⟩)
      · exact .inr (.inr ⟨rest, hq, by simp only [h, Option.map_some]; rfl⟩)

theorem resetsNext_of {s : State} {rest : List PortEvent} (hp : ∀ w, s.pending ≠ some ⟨w, 0⟩)
    (hr : s.port = .rst :: rest) : s.resetsNext = true := by
  unfold State.resetsNext
  split
  · next h => exact absurd h (hp _)
  · rfl
  · next h => exact absurd hr (h _)

/-! Several steps. -/

theorem core_run_succ (k : Nat) {s t : State} (h : step s = .next t) : core.run (k + 1) s = core.run k t := by
  have h' : core.step s = .next t := h
  simp only [Host.Core.run]
  rw [h']

/-- One step more at the end. -/
theorem core_run_snoc (k : Nat) {s t u : State} (h : core.run k s = .next t) (h2 : step t = .next u) :
    core.run (k + 1) s = .next u := by
  induction k generalizing s with
  | zero =>
    injection h with h
    subst h
    rw [core_run_succ 0 h2]
    rfl
  | succ k ih =>
    cases hs : step s with
    | next s' =>
      rw [core_run_succ _ hs] at h ⊢
      exact ih h
    | fault r => cases r
    | refused r =>
      have hs' : core.step s = .refused r := hs
      simp only [Host.Core.run] at h
      rw [hs'] at h
      cases h

end Sys2Proof.Machine
end

