-- ==== Sys2Proof/Tests/Slice0.lean ====
section
/-! SUPPORT. The model's own tests, each value from the encoding tables of 30_encoding.md or from
95_test_vectors.md, and a witness for the hypotheses of every statement. -/

namespace Sys2Proof.Tests

-- One theorem after the other: many kernel evaluations at once take more memory than the check allows.
set_option Elab.async false

open Sys2Proof.Machine

/-! Well-formedness: the one check, and a term it refuses. -/

theorem test_wellFormed_refuses_a_legal_word : (Instr.illegal 0x00000000#32).wellFormed = false := by decide
theorem test_wellFormed_refuses_a_gen_word : (Instr.illegal 0x20000005#32).wellFormed = false := by decide
theorem test_wellFormed_takes_an_illegal_word : (Instr.illegal 0x00000001#32).wellFormed = true := by decide

/-! Decoding: words written out from R80-R83 (OPC, reserved field, operands) and R81 (descriptor). -/

theorem test_decode_nop : decodeCmd (0b0000#4 ++ 0#28) = .nop := by decide
theorem test_decode_init : decodeCmd (0b0001#4 ++ 0#12 ++ 0b00010000#8 ++ 0b00001111#8) = .init 16#8 15#8 := by decide
theorem test_decode_gen : decodeCmd (0b0010#4 ++ 0b1000000000000000000000000001#28) = .gen 0x8000001#28 := by decide
theorem test_decode_destroy : decodeCmd (0b0011#4 ++ 0#28) = .destroy := by decide
theorem test_decode_macinit : decodeCmd (0b0100#4 ++ 0#12 ++ 0b10000000#8 ++ 0b00000001#8) = .macinit 128#8 1#8 := by
  decide
theorem test_decode_macupd : decodeCmd (0b0101#4 ++ 0b0000000000000000100000000000#28) = .macupd 2048#28 := by decide
theorem test_decode_macfinal : decodeCmd (0b0110#4 ++ 0#28) = .macfinal := by decide
theorem test_decode_illegal_opcode : decodeCmd (0b0111#4 ++ 0#28) = .illegal 0x70000000#32 := by decide
theorem test_decode_illegal_reserved : decodeCmd (0b0001#4 ++ 1#12 ++ 16#8 ++ 16#8) = .illegal 0x10011010#32 := by decide
theorem test_decode_rd : decodeTxn ⟨0b0#1 ++ 0x4004#16, 4, 0#32⟩ = .rd 0x4004#16 4 := by decide
theorem test_decode_wr : decodeTxn ⟨0b1#1 ++ 0x0030#16, 4, 0x12345678#32⟩ = .wr 0x0030#16 4 0x12345678#32 := by decide
theorem test_decode_table_word_too_wide : decodeTableWord 24 0x20000 = none := by decide

/-! A small core, so that a state is short to compute with; the parameters of R6 may be these. -/

def cfg : Config := { zeroRep := .zero, capacityWords := 4, msgbufWords := 2, base := 0 }

def idle : State := State.resetOf cfg

def key3 : Quad := ⟨0x3D4C4BE9#32, 0x6A82FDAE#32, 0xB58F641D#32, 0xB17B455B#32⟩
def iv3 : Quad := ⟨0x84319AA8#32, 0xDE6915CA#32, 0x1F6BDA6B#32, 0xFBD8C766#32⟩

/-- The key and IV of V-KS-3 staged. -/
def staged : State := { idle with key := key3, iv := iv3 }

/-- What `get` reads of the state an instruction leaves. -/
def after {α : Type} (get : State → α) (i : Instr) (s : State) : Option α := (nextOf (exec i s)).map get

def keyed : State := (staged.freshContext .ks).complete .ok
def macZero : State := (idle.freshContext .mac).complete .ok

/-! One step of each instruction, against section 3.8 of 95_test_vectors.md. -/

/-- V-CMD-13 -/
theorem test_nop_clears_err : after State.status .nop { idle with err := .illegalCommand } = some 0x00000000#32 := by
  decide
/-- V-CMD-5 -/
theorem test_init : after (fun t => (t.status, t.stream.cipher.ksidx, t.key.w0)) (.init 16#8 16#8) staged =
    some (0x00000010#32, 0#64, 0#32) := by decide +kernel
/-- V-CMD-4: the key check comes first. -/
theorem test_init_checks_key_first : after (fun t => (t.status, t.key.w0)) (.init 15#8 15#8) staged =
    some (0x00000100#32, 0x3D4C4BE9#32) := by decide
/-- V-CMD-7 -/
theorem test_gen : after (fun t => (t.status, t.outbuf, t.stream.cipher.ksidx)) (.gen 2#28) keyed =
    some (0x00000010#32, [0x14F1C272#32, 0x3279C419#32, 0#32, 0#32], 2#64) := by decide +kernel
/-- V-CMD-1 -/
theorem test_gen_without_context : after (fun t => (t.status, t.wordsOut)) (.gen 1#28) idle =
    some (0x00000300#32, 0#32) := by decide
/-- V-CMD-15 -/
theorem test_destroy : after id .destroy { staged with tag := 1#32, t := 2#32, mlen := 3#64, wordsOut := 1#32 } =
    some idle := by decide
/-- R165: CTX = MAC and nothing drawn. -/
theorem test_macinit : after (fun t => (t.status, t.stream.cipher.ksidx, t.mlen)) (.macinit 16#8 16#8) idle =
    some (0x00000020#32, 0#64, 0#64) := by decide +kernel
/-- V-CMD-23 -/
theorem test_macupd_up_to_the_bound : after (fun t => (t.status, t.mlen)) (.macupd 8#28)
    { idle with ctx := .mac, mlen := 0xFFFFFFFFFFFFFFF7#64 } = some (0x00000020#32, 0xFFFFFFFFFFFFFFFF#64) := by decide +kernel
/-- V-CMD-22 -/
theorem test_macupd_past_the_bound : after (fun t => (t.status, t.mlen)) (.macupd 8#28)
    { idle with ctx := .mac, mlen := 0xFFFFFFFFFFFFFFF8#64 } = some (0x00000420#32, 0xFFFFFFFFFFFFFFF8#64) := by decide +kernel
/-- V-MAC-D1: the tag of the empty message. -/
theorem test_macfinal : after (fun t => (t.status, t.tag, t.stream.cipher.ksidx, t.stream.kbuf1)) .macfinal macZero =
    some (0x00000030#32, 0x263E5CAE#32, 2#64, 0#32) := by decide +kernel
/-- V-CMD-19 -/
theorem test_macfinal_twice : after (fun t => (t.status, t.tag)) .macfinal { idle with ctx := .macdone, tag := 7#32 } =
    some (0x00000330#32, 7#32) := by decide
/-- V-CMD-8 -/
theorem test_illegal : after State.status (.illegal 0x70000000#32) { idle with ctx := .ks } = some 0x00000610#32 := by
  decide
/-- V-BUS-1 -/
theorem test_rd_id : after (·.replies) (.rd 0x0000#16 4) idle = some [.read 0x4C465331#32 .okay] := by decide
/-- V-BUS-4, V-BUS-5 -/
theorem test_rd_misaligned : after (·.replies) (.rd 0x0002#16 4) idle = some [.read 0#32 .error] ∧
    after (·.replies) (.rd 0x0000#16 2) idle = some [.read 0#32 .error] := by decide
/-- V-BUS-11 -/
theorem test_wr_key : after (fun t => (t.key.w0, t.replies)) (.wr 0x0030#16 4 0x12345678#32) idle =
    some (0x12345678#32, [.wrote .okay]) := by decide
/-- V-BUS-16 -/
theorem test_wr_while_busy : after (fun t => (t.ovr, t.pending, t.replies)) (.wr 0x0004#16 4 0x30000000#32)
    { idle with pending := some ⟨0x20000001#32, 5⟩ } = some (true, some ⟨0x20000001#32, 5⟩, [.wrote .okay]) := by decide

/-- P3's chunks (V-MAC-D12): byte 12, then byte 34. -/
theorem test_mac_in_chunks :
    ((feedChunks [⟨[0x12000000#32, 0#32], 8#28⟩, ⟨[0x34000000#32, 0#32], 8#28⟩] macZero).bind (after (·.tag) .macfinal)) =
      some 0x5DA57AAC#32 := by decide +kernel

/-- The word put in place runs as the next step, from reset. -/
theorem test_withFetchWord_command :
    (nextOf (step (State.reset.withFetchWord 32 0x20000001))).map State.status = some 0x00000300#32 := by decide
theorem test_withFetchWord_transaction :
    (nextOf (step (State.reset.withFetchWord 24 0x0000C))).map (·.replies) = some [.read 0x000007D0#32 .okay] := by decide
/-- The scripts `init` and `exec GEN 1` from reset, with a LAT of 3 and of 0. -/
theorem test_init_script :
    ((initScript 9 key3 iv3 { idle with latencies := [3, 0] }).bind fun r => execScript 9 (.gen 1#28) r.2).map
      (fun r => (r.1, r.2.outbuf.head?)) = some (0x00000010#32, some 0x14F1C272#32) := by decide +kernel

theorem next_of {o : Host.Outcome State Fault Refusal} {t : State} (h : nextOf o = some t) : o = .next t := by
  cases o with
  | next u => injection h with h; rw [h]
  | fault r => cases h
  | refused r => cases h

/-! Witnesses: for each statement with hypotheses, a state and operands that meet them. -/

def fetching (i : Instr) (lat : Nat) (s : State) : State :=
  match encode i with
  | .cmd w => { s with pending := some ⟨w, lat⟩ }
  | .bus t => { s with port := [.txn t] }

theorem witness_DecodeEncodeRoundTrip : (Instr.illegal 0xFFFFFFFF#32).wellFormed = true ∧
    (Instr.init 255#8 0#8).wellFormed = true ∧ (Instr.wr 0xFFFF#16 1 0#32).wellFormed = true := by decide

theorem witness_IllegalWordsExact : (7 ≤ (0x70000000#32).toNat / 2 ^ 28) ∧
    ((0x00000001#32).toNat / 2 ^ 28 = 0 ∧ (0x00000001#32).toNat % 2 ^ 28 ≠ 0) ∧
    ((0x40010000#32).toNat / 2 ^ 28 = 4 ∧ (0x40010000#32).toNat / 2 ^ 16 % 2 ^ 12 ≠ 0) ∧
    ¬ 7 ≤ (0x5FFFFFFF#32).toNat / 2 ^ 28 ∧ idle.pending = none ∧
    (fetching (.illegal 0x00000001#32) 0 idle).pending = some ⟨0x00000001#32, 0⟩ := by decide

theorem witness_OperandFieldsAreUnsigned : decodeCmd 0x1000FF80#32 = .init 255#8 128#8 ∧
    decodeCmd 0x40008001#32 = .macinit 128#8 1#8 ∧ decodeCmd 0x2FFFFFFF#32 = .gen 0xFFFFFFF#28 ∧
    decodeCmd 0x50000000#32 = .macupd 0#28 := by decide

/-- The register map at its edges: the last fixed registers and the hole before KEY0, both ends of MSGBUF and of
OUTBUF, and one past each. -/
theorem witness_RegisterMapExact : Config.default.ok = true ∧
    regAt Config.default 0x0000#16 = some .id ∧ regAt Config.default 0x0028#16 = some .tag ∧
    regAt Config.default 0x002C#16 = none ∧ regAt Config.default 0x004C#16 = some (.iv 3) ∧
    regAt Config.default 0x0050#16 = none ∧ regAt Config.default 0x0100#16 = some (.msgbuf 0) ∧
    regAt Config.default 0x01FC#16 = some (.msgbuf 63) ∧ regAt Config.default 0x0200#16 = none ∧
    regAt Config.default 0x3FFC#16 = none ∧ regAt Config.default 0x4000#16 = some (.outbuf 0) ∧
    regAt Config.default 0x5F3C#16 = some (.outbuf 1999) ∧ regAt Config.default 0x5F40#16 = none ∧
    regAt { Config.default with capacityWords := 4096 } 0x7FFC#16 = some (.outbuf 4095) ∧
    regAt { Config.default with capacityWords := 4096 } 0x8000#16 = none := by decide +kernel

/-- V-BUS-4, V-BUS-5 (width and alignment), V-BUS-7 (reserved), V-BUS-14 and V-BUS-13 (busy), V-BUS-12 (idle). -/
theorem witness_ReadAnswersAsTheMapSays : idle.cfg.ok = true ∧
    ((2 : Nat) ≠ 4) ∧ (0x0002#16).toNat % 4 ≠ 0 ∧ target Config.default 0x0200#16 4 = none ∧
    (Reg.status.inMap cfg = true ∧ Reg.status.offset = (0x0008#16).toNat ∧ (fetching .nop 1 idle).busy = true) ∧
    ((Reg.outbuf 3).inMap cfg = true ∧ (Reg.outbuf 3).offset = (0x400C#16).toNat ∧ (fetching .nop 1 idle).busy = true) ∧
    ((Reg.outbuf 0).inMap cfg = true ∧ (Reg.outbuf 0).offset = (0x4000#16).toNat ∧ idle.busy = false) := by decide

theorem witness_ReadAnswersAsTheMapSays_reserved :
    ∀ r : Reg, r.inMap idle.cfg = true → r.offset ≠ (0x002C#16).toNat := by
  have h : (0x002C#16).toNat = 44 := rfl
  intro r _
  rw [h]
  cases r <;> simp only [Reg.offset] <;> omega

/-- V-BUS-17, V-BUS-15, V-BUS-10, V-BUS-11: an error, a write while BUSY, an ignored one, each kind of stored one. -/
theorem witness_WriteReachesOnlyItsRegister : idle.cfg.ok = true ∧ (0x0006#16).toNat % 4 ≠ 0 ∧
    (Reg.inMap cfg .cmd = true ∧ Reg.cmd.offset = (0x0004#16).toNat ∧ idle.pending = none) ∧
    (Reg.inMap cfg (.key 0) = true ∧ (Reg.key 0).offset = (0x0030#16).toNat ∧ (fetching .nop 1 idle).pending ≠ none) ∧
    (Reg.inMap cfg (.key 3) = true ∧ (Reg.key 3).offset = (0x003C#16).toNat) ∧
    (Reg.inMap cfg (.iv 0) = true ∧ (Reg.iv 0).offset = (0x0040#16).toNat) ∧
    (Reg.inMap cfg (.msgbuf 1) = true ∧ (Reg.msgbuf 1).offset = (0x0104#16).toNat ∧ 1 < idle.msgbuf.length) ∧
    (Reg.inMap cfg .status = true ∧ Reg.status.offset = (0x0008#16).toNat) := by decide

theorem witness_OvrFallsOnlyOnAcceptance :
    step { idle with ovr := true, port := [.txn ⟨0x10004#17, 4, 0#32⟩] } =
      .next { idle with pending := some ⟨0#32, 0⟩, replies := [.wrote .okay] } ∧
    step { idle with ovr := true, port := [.rst] } = .next idle :=
  ⟨next_of (by decide), next_of (by decide)⟩

def hidden : State := { idle with stream := { Stream.zero with kbuf0 := 5#32 }, t := 1#32, key := key3, outbuf := [9#32, 0#32, 0#32, 0#32] }

theorem witness_HiddenStateNeverReachesThePort : SameView idle hidden ∧ idle ≠ hidden ∧
    exec (.rd 0x4000#16 4) idle = .next { idle with replies := [.read 0#32 .okay] } ∧
    exec (.rd 0x4000#16 4) hidden = .next { hidden with replies := [.read 0#32 .okay] } := by
  refine ⟨⟨rfl, rfl, rfl, rfl, rfl, rfl, rfl, rfl, rfl, ?_⟩, by decide, next_of (by decide +kernel), next_of (by decide +kernel)⟩
  intro j hj
  exact absurd hj (Nat.not_lt_zero j)

theorem witness_BusyReadsShowNoResult :
    let a := fetching .nop 1 idle
    let b := fetching (.gen 1#28) 7 { hidden with wordsOut := 1#32, tag := 3#32 }
    a.busy = true ∧ b.busy = true ∧ a.cfg = b.cfg ∧ a.ovr = b.ovr ∧ a.ctx = b.ctx ∧ a.err = b.err ∧
      exec (.rd 0x4000#16 4) a = .next { a with replies := [.read 0#32 .okay] } ∧
      exec (.rd 0x4000#16 4) b = .next { b with replies := [.read 0#32 .okay] } :=
  ⟨rfl, rfl, rfl, rfl, rfl, rfl, next_of (by decide), next_of (by decide)⟩

theorem witness_StepRunsTheDecodedInstruction :
    (fetching .nop 0 idle).pending = some ⟨0#32, 0⟩ ∧
    ((fetching (.rd 0#16 4) 0 idle).pending = none ∧ (fetching (.rd 0#16 4) 0 idle).port = .txn ⟨0#17, 4, 0#32⟩ :: []) ∧
    ((fetching (.rd 0#16 4) 0 (fetching .nop 1 idle)).pending = some ⟨0#32, 0 + 1⟩) ∧
    ((fetching .nop 1 idle).pending = some ⟨0#32, 0 + 1⟩ ∧ (fetching .nop 1 idle).port = []) ∧
    (idle.pending = none ∧ idle.port = []) := by decide

theorem witness_PresentedWordRunsNext : decodeTableWord 24 0x10004 = some (.wr 0x0004#16 4 0#32) ∧
    decodeTableWord 32 0x50000008 = some (.macupd 8#28) := by decide

/-- A command in flight, and one whose LAT has passed; a register of the map. -/
theorem witness_ResetInputClearsEverything :
    { fetching (.gen 1#28) 3 keyed with port := [.rst] }.port = .rst :: [] ∧
    { fetching (.gen 1#28) 0 keyed with port := [.rst] }.port = .rst :: [] ∧
    (Config.default.ok = true ∧ (Reg.outbuf 1999).inMap Config.default = true) :=
  ⟨rfl, rfl, by decide +kernel⟩

theorem witness_CommandInFlightCompletesOnFrozenState :
    let s := { fetching (.gen 1#28) 2 idle with port := [.txn ⟨0x10004#17, 4, 0#32⟩, .txn ⟨0x00008#17, 4, 0#32⟩, .rst] }
    s.pending = some ⟨0x20000001#32, 2⟩ ∧ .rst ∉ s.port.take 2 := by decide

theorem witness_ResultDoesNotDependOnLatency : idle.port = [] := rfl

theorem witness_OnlyCommandsTouchTheEngines :
    let s := { idle with port := [.txn ⟨0x10100#17, 4, 1#32⟩] }
    step s = .next { s with port := [], msgbuf := [1#32, 0#32], replies := [.wrote .okay] } ∧
      (∀ w, s.pending ≠ some ⟨w, 0⟩) ∧ s.resetsNext = false :=
  ⟨next_of (by decide), nofun, rfl⟩

theorem witness_KeyRegistersChangeOnlyAsListed :
    step { idle with port := [.txn ⟨0x1003C#17, 4, 1#32⟩] } =
      .next { idle with key := ⟨0#32, 0#32, 0#32, 1#32⟩, replies := [.wrote .okay] } ∧
    step (fetching .destroy 0 staged) = .next idle ∧ Quad.zero ≠ key3 :=
  ⟨next_of (by decide), next_of (by decide), by decide⟩

theorem witness_ParametersNeverChange : step idle = .next idle := rfl

theorem witness_AllocationFailureNeverRaised : step { idle with err := .allocationFailure } =
    .next { idle with err := .allocationFailure } := rfl

theorem witness_ResetStateIsSafe : Config.default.ok = true ∧ cfg.ok = true ∧
    ({ zeroRep := .allOnes, capacityWords := 4096, msgbufWords := 1, base := 0x10000 } : Config).ok = true := by decide

theorem idle_inv : idle.Inv := by
  refine ⟨rfl, rfl, rfl, by decide, fun j _ => ?_, nofun, by decide, fun _ => rfl, fun _ => rfl,
    fun _ => ⟨rfl, rfl, rfl⟩, nofun, nofun, nofun, fun h => by rcases h with h | h <;> cases h⟩
  simp only [idle, State.resetOf, List.getD_eq_getElem?_getD, List.getElem?_replicate]
  split <;> rfl

theorem witness_StepKeepsTheInvariant : idle.Inv ∧ step idle = .next idle := ⟨idle_inv, rfl⟩

theorem keyed_tracks : keyed.KsTracks key3 iv3 0 := ⟨rfl, rfl⟩

theorem macZero_tracks : macZero.MacTracks Quad.zero Quad.zero [] := by
  constructor <;> simp [macZero, idle, State.resetOf, bufferedWord, tagSum_nil, afterWords]

theorem witness_StepKeepsContextsGenuine : idle.Inv ∧ idle.Genuine ∧ step idle = .next idle :=
  ⟨idle_inv, ⟨nofun, nofun⟩, rfl⟩

theorem witness_FirstFailingCheckIsReported : isCommand (.init 15#8 15#8) = true ∧
    firstError (.init 15#8 15#8) idle = some .invalidKeyLength ∧ isCommand .nop = true ∧ firstError .nop idle = none := by
  decide

theorem witness_FailureIsAtomic : isCommand (.macupd 1#28) = true ∧
    firstError (.macupd 1#28) idle = some .uninitializedContext ∧ (∀ n, Instr.macupd 1#28 ≠ .gen n) ∧
    firstError (.gen 5#28) keyed = some .capacityExceeded := ⟨rfl, rfl, nofun, by decide⟩

theorem witness_LifecycleFollowsTheTable : isCommand .macfinal = true ∧ legalIn .macfinal idle.ctx = false ∧
    legalIn (.gen 0#28) keyed.ctx = true := by decide

theorem witness_Add31AddsResidues : (0x12345678#31).toNat + (0x6DCBA987#31).toNat = prime := by decide

theorem witness_RotationMultipliesResidue : 0 < 1 ∧ 1 < 31 ∧ 0 < 30 ∧ 30 < 31 := by decide

/-- V-LF-5, V-LF-9: a residue that is not 0, and one that is. -/
theorem witness_AdvancesShiftAndStore :
    let l : Lfsr := ⟨1, 2, 3, 4, 5, 6, 7, 8, 9, 10, 11, 12, 13, 14, 15, 16⟩
    0x01D40101 = (feedback l).toNat ∧ 0x01D40102 = ((feedback l).toNat + (1#31).toNat) % prime ∧
      0 = (feedback { Lfsr.zero with s0 := 0x7F807F00#31, s15 := 1#31 }).toNat := by decide +kernel

theorem witness_SubstitutionAndMixingBitByBit : 0 < 32 ∧ 31 < 32 := by decide

theorem witness_InitializeIsThirtyTwoRoundsAndPriming : 0 < 32 ∧ 31 < 32 := by decide

theorem witness_InitStartsAFreshKeystream : (15#8).toNat ≠ 16 ∧ (16#8).toNat = 16 ∧ (0#8).toNat ≠ 16 := by decide

theorem witness_GenWritesTheNextWords : keyed.ctx = .ks ∧ (4#28).toNat ≤ keyed.cfg.capacityWords ∧
    keyed.KsTracks key3 iv3 0 := ⟨rfl, by decide, keyed_tracks⟩

theorem witness_FailingGenDrawsNothing : idle.ctx ≠ .ks ∧ keyed.cfg.capacityWords < (5#28).toNat := by decide

theorem witness_GenTruncatesAndConcatenates : keyed.ctx = .ks ∧ (4#28).toNat = (1#28).toNat + (3#28).toNat ∧
    (4#28).toNat ≤ keyed.cfg.capacityWords ∧
    ∃ a b c, exec (.gen 1#28) keyed = .next a ∧ exec (.gen 3#28) a = .next b ∧ exec (.gen 4#28) keyed = .next c := by
  refine ⟨rfl, by decide, by decide, ?_⟩
  obtain ⟨a, ha⟩ := exec_next (.gen 1#28) keyed
  obtain ⟨b, hb⟩ := exec_next (.gen 3#28) a
  obtain ⟨c, hc⟩ := exec_next (.gen 4#28) keyed
  exact ⟨a, b, c, ha, hb, hc⟩

/-- A LAT of 3, and the list used up. -/
theorem witness_DestroyLeavesTheResetState :
    let s := { staged with port := [.txn ⟨0x10004#17, 4, 0x30000000#32⟩] }
    (s.pending = none ∧ s.port = [.txn ⟨0x10004#17, 4, 0x30000000#32⟩] ∧ s.latencies = []) ∧
      { s with latencies := [3] }.latencies.headD 0 = 3 := ⟨⟨rfl, rfl, rfl⟩, rfl⟩

theorem witness_MacinitStartsAFreshMessage : (17#8).toNat ≠ 16 ∧ (16#8).toNat = 16 ∧ (255#8).toNat ≠ 16 := by decide

/-- With MSGBUF full; idle's MSGBUF holds no set bit, so the zero-bits clause is met too. -/
theorem witness_MacupdAddsItsBits : macZero.ctx = .mac ∧ (64#28).toNat ≤ 32 * macZero.cfg.msgbufWords ∧
    macZero.mlen.toNat + (64#28).toNat < 2 ^ 64 ∧ (∀ i, i < (64#28).toNat → msgBit macZero.msgbuf i = false) ∧
    macZero.MacTracks Quad.zero Quad.zero [] := by
  exact ⟨rfl, by decide, by decide, by decide +kernel, macZero_tracks⟩

theorem witness_MacfinalWritesTheTag : macZero.ctx = .mac ∧ macZero.MacTracks Quad.zero Quad.zero [] :=
  ⟨rfl, macZero_tracks⟩

theorem witness_ChunksDoNotShowInTheTag :
    let cs : List Chunk := [⟨[0x12000000#32, 0#32], 8#28⟩, ⟨[0x34000000#32, 0#32], 8#28⟩]
    exec (.macinit 16#8 16#8) idle = .next macZero ∧ (∀ c ∈ cs, c.n.toNat ≤ 32 * idle.cfg.msgbufWords) ∧
      (messageOf cs).length < 2 ^ 64 := ⟨rfl, by decide, by decide⟩

theorem witness_WindowReadsTheKeystream : 0 + 1 < 2 ^ 64 ∧ macZero.MacTracks Quad.zero Quad.zero [] ∧
    ([] : List Bool).length ≤ 31 ∧ 31 < 2 ^ 64 := ⟨by decide, macZero_tracks, by decide, by decide⟩

theorem witness_MessageBitsAreMsbFirst : 39 < 8 * [1#8, 2#8, 3#8, 4#8, 5#8].length := by decide

theorem witness_OutputBytesAreBigEndian : 1 < [0x27BEDE74#32, 0x018082DA#32].length ∧ 3 < 4 := by decide

theorem witness_KeyScriptsFillTheStagingRegisters : idle.pending = none := rfl

end Sys2Proof.Tests
end

section
/-! The parameters of R6 are fixed, and the bit order of a packed message (R12, R56, R162). -/

namespace Sys2Proof.Machine

/-! Parameters. -/

theorem exec_txn_cfg (x : BusTxn) (s t : State) (h : exec (decodeTxn x) s = .next t) : t.cfg = s.cfg := by
  rw [exec_txn_frame x s t h]

theorem exec_cmd_cfg (w : Word) (s t : State) (h : exec (decodeCmd w) s = .next t) : t.cfg = s.cfg :=
  (exec_cmd_frame w s t h).1

/-- Settles O21, by the four things a step can be. -/
theorem parametersNeverChange : Obligations.ParametersNeverChange := by
  intro s t h
  rcases step_cases s with ⟨w, _, hs⟩ | ⟨_, ⟨_, hs⟩ | ⟨x, rest, _, hs⟩ | ⟨rest, _, hs⟩⟩ <;> rw [hs] at h
  · exact exec_cmd_cfg w s t h
  · cases h; rfl
  · exact exec_txn_cfg x (s.took rest) t h
  · cases h; rfl

/-! Packed messages. -/

/-- Word j of a packed message is its bytes 4j to 4j + 3, the first one on top and zero for those past the end (R56). -/
theorem packBytes_getD (bs : List Byte) (j : Nat) :
    (packBytes bs).getD j 0 =
      bs.getD (4 * j) 0 ++ bs.getD (4 * j + 1) 0 ++ bs.getD (4 * j + 2) 0 ++ bs.getD (4 * j + 3) 0 := by
  induction bs using packBytes.induct generalizing j with
  | case1 a b c d rest ih =>
    cases j with
    | zero => rfl
    | succ j => exact ih j
  | case2 | case3 | case4 | case5 =>
    cases j with
    | zero => rfl
    | succ j => simp [packBytes, Nat.mul_succ]

/-- Bit i of a word of four bytes, counted from the top, is bit i mod 8 of byte floor(i/8), counted from the top (R12). -/
theorem appendBytes_getLsbD (byte : Nat → Byte) (i : Nat) (h : i < 32) :
    (byte 0 ++ byte 1 ++ byte 2 ++ byte 3).getLsbD (31 - i) = (byte (i / 8)).getLsbD (7 - i % 8) := by
  simp only [BitVec.getLsbD_append]
  have hq : i / 8 = 0 ∨ i / 8 = 1 ∨ i / 8 = 2 ∨ i / 8 = 3 := by omega
  rcases hq with hq | hq | hq | hq <;> rw [hq] <;> grind

/-- The bits past the end of the message are the zero bits of the padding, so no bound on i is needed. -/
theorem msgBit_packBytes (bs : List Byte) (i : Nat) :
    msgBit (packBytes bs) i = (bs.getD (i / 8) 0).getLsbD (7 - i % 8) := by
  have hbyte : 4 * (i / 32) + i % 32 / 8 = i / 8 := by omega
  have hbit : i % 32 % 8 = i % 8 := by omega
  rw [msgBit, packBytes_getD]
  have h := appendBytes_getLsbD (fun q => bs.getD (4 * (i / 32) + q) 0) (i % 32) (Nat.mod_lt i (by decide))
  simpa only [Nat.add_zero, hbyte, hbit] using h

/-- Settles O57, by the bytes of each packed word and the bit order within a word. -/
theorem messageBitsAreMsbFirst : Obligations.MessageBitsAreMsbFirst :=
  fun bs i _ => msgBit_packBytes bs i

end Sys2Proof.Machine
end

section
/-! What a command and a step do to the engines, as one case per way they can end (R203, R205, R210, R244);
what a write of the key registers, a presented word and a read come to (R183, R184, log entry 5). -/

namespace Sys2Proof.Machine

/-! What a state shares with another when only the port's side of the core has moved. -/

/-- At most the staging registers, OVR, ERR, PENDING and the model's port fields differ (R41). -/
def State.SameEngines (s t : State) : Prop :=
  t = { s with
    key := t.key, iv := t.iv, msgbuf := t.msgbuf, ovr := t.ovr, err := t.err, pending := t.pending
    latencies := t.latencies, port := t.port, replies := t.replies }

theorem State.SameEngines.trans {a b c : State} (hab : a.SameEngines b) (hbc : b.SameEngines c) :
    a.SameEngines c :=
  Eq.trans hbc (by rw [hab])

theorem State.sameEngines_took (s : State) (rest : List PortEvent) : s.SameEngines (s.took rest) := rfl

theorem State.sameEngines_complete (s : State) (e : Err) : s.SameEngines (s.complete e) := rfl

theorem exec_txn_port {x : BusTxn} {s t : State} (h : exec (decodeTxn x) s = .next t) : t.port = s.port := by
  rw [exec_txn_frame x s t h]

theorem exec_txn_sameEngines {x : BusTxn} {s t : State} (h : exec (decodeTxn x) s = .next t) : s.SameEngines t := by
  rw [State.SameEngines, exec_txn_port h]
  exact exec_txn_frame x s t h

/-! Commands. -/

/-- What a completing command leaves: only its code in STATUS.ERR (NOP, ILLEGAL, and every failure but GEN's), or
the effect of its success. -/
inductive CommandEffect (s : State) : Instr → State → Prop
  | status (i : Instr) (e : Err) (he : e ≠ .allocationFailure) : CommandEffect s i (s.complete e)
  | genFails (n : BitVec 28) (e : Err) (he : e ≠ .allocationFailure) : CommandEffect s (.gen n) (s.raiseGen e)
  | init : CommandEffect s (.init 16#8 16#8) ((s.freshContext .ks).complete .ok)
  | macinit : CommandEffect s (.macinit 16#8 16#8) ((s.freshContext .mac).complete .ok)
  | gen (n : BitVec 28) (hctx : s.ctx = .ks) (hn : n.toNat ≤ s.cfg.capacityWords) :
      CommandEffect s (.gen n) ((s.generate n.toNat).complete .ok)
  | destroy : CommandEffect s .destroy (s.wipe.complete .ok)
  | macupd (n : BitVec 28) (hctx : s.ctx = .mac) (hn : n.toNat ≤ 32 * s.cfg.msgbufWords)
      (hlen : s.mlen.toNat + n.toNat < 2 ^ 64) :
      CommandEffect s (.macupd n) ((s.update n.toNat).complete .ok)
  | macfinal (hctx : s.ctx = .mac) : CommandEffect s .macfinal (s.finalize.complete .ok)

theorem exec_command_effect {i : Instr} {s t : State} (hi : isCommand i = true) (h : exec i s = .next t) :
    CommandEffect s i t := by
  cases i with
  | nop => cases h; exact .status _ _ nofun
  | init klen ivlen =>
    cases h
    rcases startContext_eq s klen ivlen .ks with ⟨_, e⟩ | ⟨_, _, e⟩ | ⟨rfl, rfl, e⟩ <;> rw [e]
    · exact .status _ _ nofun
    · exact .status _ _ nofun
    · exact .init
  | gen n =>
    rw [exec] at h
    rcases execGen_eq n s with ⟨_, e⟩ | ⟨_, _, e⟩ | ⟨hctx, hn, e⟩ <;> rw [e] at h <;> cases h
    · exact .genFails _ _ nofun
    · exact .genFails _ _ nofun
    · exact .gen n hctx hn
  | destroy => cases h; exact .destroy
  | macinit klen ivlen =>
    cases h
    rcases startContext_eq s klen ivlen .mac with ⟨_, e⟩ | ⟨_, _, e⟩ | ⟨rfl, rfl, e⟩ <;> rw [e]
    · exact .status _ _ nofun
    · exact .status _ _ nofun
    · exact .macinit
  | macupd n =>
    rw [exec] at h
    rcases execMacupd_eq n s with ⟨_, e⟩ | ⟨_, _, e⟩ | ⟨hctx, hn, hlen, e⟩ <;> rw [e] at h <;> cases h
    · exact .status _ _ nofun
    · exact .status _ _ nofun
    · exact .macupd n hctx hn hlen
  | macfinal =>
    rw [exec] at h
    rcases execMacfinal_eq s with ⟨_, e⟩ | ⟨hctx, e⟩ <;> rw [e] at h <;> cases h
    · exact .status _ _ nofun
    · exact .macfinal hctx
  | illegal w => cases h; exact .status _ _ nofun
  | rd off size => cases hi
  | wr off size data => cases hi

theorem isCommand_decodeCmd (w : Word) : isCommand (decodeCmd w) = true := by
  rcases decodeCmd_cases w with ⟨_, e⟩ | ⟨_, _, e⟩ | ⟨_, e⟩ | ⟨_, e⟩ | ⟨_, _, e⟩ | ⟨_, e⟩ | ⟨_, e⟩ | ⟨_, e⟩ <;>
    rw [e] <;> rfl

theorem exec_cmd_effect {w : Word} {s t : State} (h : exec (decodeCmd w) s = .next t) :
    CommandEffect s (decodeCmd w) t :=
  exec_command_effect (isCommand_decodeCmd w) h

/-- Only a successful INIT or MACINIT, and DESTROY, touch the key registers, and they clear them (R28). -/
theorem CommandEffect.key {s t : State} {i : Instr} (h : CommandEffect s i t) :
    t.key = s.key ∨
      t.key = Quad.zero ∧ (i = .init 16#8 16#8 ∨ i = .macinit 16#8 16#8 ∨ i = .destroy) := by
  cases h with
  | init => exact .inr ⟨rfl, .inl rfl⟩
  | macinit => exact .inr ⟨rfl, .inr (.inl rfl)⟩
  | destroy => exact .inr ⟨rfl, .inr (.inr rfl)⟩
  | status | genFails | gen | macupd | macfinal => exact .inl rfl

/-! Steps. -/

/-- A step that completes no command and is no reset takes at most one event of the port and leaves the engines. -/
theorem step_sameEngines {s t : State} (h : step s = .next t) (hp : ∀ w, s.pending ≠ some ⟨w, 0⟩)
    (hr : s.resetsNext = false) : s.SameEngines t ∧ t.port = s.port.tail := by
  rcases step_cases s with ⟨w, hw, _⟩ | ⟨_, ⟨hq, hs⟩ | ⟨x, rest, hq, hs⟩ | ⟨rest, hq, _⟩⟩
  · exact absurd hw (hp w)
  · rw [hs] at h
    cases h
    exact ⟨s.sameEngines_took [], by rw [hq]; rfl⟩
  · rw [hs] at h
    exact ⟨(s.sameEngines_took rest).trans (exec_txn_sameEngines h), by rw [exec_txn_port h, hq]; rfl⟩
  · rw [resetsNext_of hp hq] at hr
    cases hr

/-! The key registers. -/

/-- A register is reached at its own offset only (R51, R181). -/
theorem target_offset {cfg : Config} {off : Offset} {size : Nat} {r : Reg} (h : target cfg off size = some r) :
    size = 4 ∧ off.toNat = r.offset := by
  obtain ⟨hsize, hmod, hreg⟩ := (target_eq_some _ _ _ _).mp h
  refine ⟨hsize, ?_⟩
  simp only [regAt] at hreg
  split at hreg
  · exact ((fixedRegAt_eq _ _).mp hreg).1.symm
  · split at hreg
    · split at hreg <;> cases hreg
      simp only [Reg.offset]; omega
    · split at hreg
      · split at hreg <;> cases hreg
        simp only [Reg.offset]; omega
      · cases hreg

/-- The one register whose write reaches the key registers is a KEYn, while BUSY = 0 (R184). -/
theorem exec_txn_key {x : BusTxn} {s t : State} (h : exec (decodeTxn x) s = .next t) :
    t.key = s.key ∨
      s.busy = false ∧ ∃ (off : Offset) (v : Word) (n : Fin 4),
        decodeTxn x = .wr off 4 v ∧ off.toNat = 0x30 + 4 * n.val ∧ t.key = s.key.write n v := by
  rcases exec_txn_eq x s t h with ⟨_, rfl⟩ | ⟨off, size, v, r, hx, hr, ⟨_, rfl⟩ | ⟨hbusy, rfl⟩⟩
  · exact .inl rfl
  · exact .inl rfl
  · rcases writeReg_eq s r v with ⟨_, e⟩ | ⟨n, rfl, e⟩ | ⟨_, _, e⟩ | ⟨_, _, e⟩ | e <;> rw [e]
    · exact .inl rfl
    · obtain ⟨rfl, hoff⟩ := target_offset hr
      exact .inr ⟨hbusy, off, v, n, hx, hoff, rfl⟩
    · exact .inl rfl
    · exact .inl rfl
    · exact .inl rfl

theorem busy_eq_false_iff (s : State) : s.busy = false ↔ s.pending = none := by
  simp [State.busy]

/-! A presented word. -/

/-- A descriptor put at the port runs next, on the state as it was: the step taken from a command in flight is the
one `holdBack` gave it. -/
theorem step_present_txn (s : State) {nbits w : Nat} (h : nbits ≤ 24) :
    step (s.present nbits w) = exec (decodeTxn ⟨BitVec.ofNat 17 w, 4, 0⟩) s := by
  rw [State.present, if_pos h]
  cases s with
  | mk cfg stream ctx t mlen key iv msgbuf outbuf wordsOut tag ovr err pending latencies port replies =>
    cases pending <;> rfl

theorem step_present_cmd (s : State) {nbits w : Nat} (h : 24 < nbits) :
    step (s.present nbits w) = exec (decodeCmd (BitVec.ofNat 32 w))
      { s with ovr := false, err := .ok, pending := some ⟨BitVec.ofNat 32 w, 0⟩ } := by
  rw [State.present, if_neg (Nat.not_le.mpr h)]
  rfl

theorem decodeTableWord_txn {nbits w : Nat} {i : Instr} (h : nbits ≤ 24) (hi : decodeTableWord nbits w = some i) :
    i = decodeTxn ⟨BitVec.ofNat 17 w, 4, 0⟩ := by
  rw [decodeTableWord, hostWordOf, if_pos h] at hi
  by_cases hw : w < 2 ^ 17
  · rw [if_pos hw] at hi; cases hi; rfl
  · rw [if_neg hw] at hi; cases hi

theorem decodeTableWord_cmd {nbits w : Nat} {i : Instr} (h : 24 < nbits) (hi : decodeTableWord nbits w = some i) :
    i = decodeCmd (BitVec.ofNat 32 w) := by
  rw [decodeTableWord, hostWordOf, if_neg (Nat.not_le.mpr h)] at hi
  by_cases hw : w < 2 ^ 32
  · rw [if_pos hw] at hi; cases hi; rfl
  · rw [if_neg hw] at hi; cases hi

/-! What a read shows. -/

theorem SameView.status {a b : State} (h : SameView a b) : a.status = b.status := by
  rw [State.status, State.status, h.err, h.ctx, h.ovr, h.busy]

/-- A register shows only what R183 lets the host see. -/
theorem SameView.regValue {a b : State} (h : SameView a b) (r : Reg) : a.regValue r = b.regValue r := by
  cases r with
  | id | cmd | key | iv | msgbuf => rfl
  | status => exact h.status
  | cap | mbcap => simp only [State.regValue, h.cfg]
  | wordsOut => exact h.wordsOut
  | ksidxLo | ksidxHi => simp only [State.regValue, h.ksidx]
  | mlenLo | mlenHi => simp only [State.regValue, h.mlen]
  | tag => exact h.tag
  | outbuf j =>
    simp only [State.regValue, ← h.wordsOut]
    split
    · next hj => exact h.outbuf j hj
    · rfl

theorem SameView.readReply {a b : State} (h : SameView a b) (off : Offset) (size : Nat) :
    a.readReply off size = b.readReply off size := by
  simp only [State.readReply, h.cfg, h.busy, h.regValue]

theorem exec_rd_reply {off : Offset} {size : Nat} {s t : State} (h : exec (.rd off size) s = .next t) :
    t.replies.head? = some (s.readReply off size) := by
  cases h
  rfl

end Sys2Proof.Machine
end

section
/-! Who may change the engines and the key registers, what a read can show, and that a presented word runs next. -/

namespace Sys2Proof.Machine

/-- Settles O19: an idle clock and a transaction move nothing but the port's side of the core. -/
theorem onlyCommandsTouchTheEngines : Obligations.OnlyCommandsTouchTheEngines := by
  intro s t h hp hr
  obtain ⟨hst, hport⟩ := step_sameEngines h hp hr
  rw [← hport]
  exact hst

/-- Settles O20, by the four things a step can be. -/
theorem keyRegistersChangeOnlyAsListed : Obligations.KeyRegistersChangeOnlyAsListed := by
  intro s t h hne
  rcases step_cases s with ⟨w, hw, hs⟩ | ⟨hp, ⟨_, hs⟩ | ⟨x, rest, hq, hs⟩ | ⟨rest, hq, hs⟩⟩ <;> rw [hs] at h
  · rcases (exec_cmd_effect h).key with hkey | ⟨hzero, hi⟩
    · exact absurd hkey hne
    · exact .inl ⟨hzero, .inr ⟨w, hw, hi⟩⟩
  · cases h
    exact absurd rfl hne
  · rcases exec_txn_key h with hkey | ⟨hbusy, off, v, n, hx, hoff, hkey⟩
    · exact absurd hkey hne
    · rw [State.took_busy, busy_eq_false_iff] at hbusy
      refine .inr ⟨hbusy, off, v, n, x, rest, hq, hx, hoff, fun m => ?_⟩
      rw [hkey, Quad.word_write]
      rfl
  · cases h
    exact .inl ⟨rfl, .inl (resetsNext_of hp hq)⟩

/-- Settles O10: a read's reply is a function of the view. -/
theorem hiddenStateNeverReachesThePort : Obligations.HiddenStateNeverReachesThePort := by
  intro a b ta tb off size hview ha hb
  rw [exec_rd_reply ha, exec_rd_reply hb, hview.readReply]

/-- Settles O14, by the two widths of a table word. -/
theorem presentedWordRunsNext : Obligations.PresentedWordRunsNext := by
  intro s nbits w i hi
  rw [State.withFetchWord]
  constructor <;> intro h
  · rw [step_present_txn s h, decodeTableWord_txn h hi]
  · rw [step_present_cmd s h, decodeTableWord_cmd h hi]

end Sys2Proof.Machine
end

section
/-! The invariant of the core: each named update of the state keeps it (R20-R34, R41, R148, R149, R161-R168, R201), so
every step does. -/

namespace Sys2Proof.Machine

section
variable {s t : State}

/-- The invariant speaks of the engines, of MSGBUF's size and of STATUS.ERR while BUSY. -/
theorem State.Inv.of_sameEngines (h : s.Inv) (hst : s.SameEngines t) (hmsg : t.msgbuf.length = s.msgbuf.length)
    (hbusy : t.busy = true → t.err = .ok) (herr : t.err ≠ .allocationFailure) : t.Inv := by
  rw [hst]
  exact { h with msgbufSize := hmsg.trans h.msgbufSize, busyErr := hbusy, errRaised := herr }

theorem State.Inv.took (h : s.Inv) (rest : List PortEvent) : (s.took rest).Inv :=
  h.of_sameEngines (s.sameEngines_took rest) rfl (by simpa using h.busyErr) h.errRaised

theorem State.Inv.complete (h : s.Inv) {e : Err} (he : e ≠ .allocationFailure) : (s.complete e).Inv :=
  h.of_sameEngines (s.sameEngines_complete e) rfl nofun he

theorem State.Inv.answer (h : s.Inv) (r : Reply) : (s.answer r).Inv :=
  h.of_sameEngines rfl rfl h.busyErr h.errRaised

theorem State.Inv.overrun (h : s.Inv) : { s with ovr := true }.Inv :=
  h.of_sameEngines rfl rfl h.busyErr h.errRaised

theorem State.Inv.writeReg (h : s.Inv) (r : Reg) (v : Word) : (s.writeReg r v).Inv := by
  rcases writeReg_eq s r v with ⟨_, e⟩ | ⟨n, _, e⟩ | ⟨n, _, e⟩ | ⟨m, _, e⟩ | e <;> rw [e]
  · exact h.of_sameEngines rfl rfl (fun _ => rfl) nofun
  · exact h.of_sameEngines rfl rfl h.busyErr h.errRaised
  · exact h.of_sameEngines rfl rfl h.busyErr h.errRaised
  · exact h.of_sameEngines rfl List.length_set h.busyErr h.errRaised
  · exact h

theorem State.Inv.txn (h : s.Inv) {x : BusTxn} (ht : exec (decodeTxn x) s = .next t) : t.Inv := by
  rcases exec_txn_eq x s t ht with ⟨r, rfl⟩ | ⟨_, _, v, r, _, _, ⟨_, rfl⟩ | ⟨_, rfl⟩⟩
  · exact h.answer r
  · exact h.overrun.answer _
  · exact (h.writeReg r v).answer _

theorem getD_replicate_zero (n j : Nat) : (List.replicate n (0 : Word)).getD j 0 = 0 :=
  List.getElem?_getD_replicate_default_eq 0 n j

theorem State.Inv.resetOf {cfg : Config} (h : cfg.ok = true) : (State.resetOf cfg).Inv where
  cfgOk := h
  msgbufSize := List.length_replicate
  outbufSize := List.length_replicate
  wordsOutMax := Nat.zero_le _
  outbufRest _ _ := getD_replicate_zero _ _
  busyErr := nofun
  errRaised := nofun
  onlyKsHasOutput _ := rfl
  onlyDoneHasTag _ := rfl
  uninitWiped _ := ⟨rfl, rfl, rfl⟩
  ksUnused := nofun
  macDrawn := nofun
  doneWiped := nofun
  cellRange := nofun

theorem State.Inv.hardReset (h : s.Inv) : s.hardReset.Inv :=
  (State.Inv.resetOf h.cfgOk).of_sameEngines rfl rfl nofun nofun

theorem State.Inv.wipe (h : s.Inv) : s.wipe.Inv :=
  (State.Inv.resetOf h.cfgOk).of_sameEngines rfl rfl h.busyErr h.errRaised

/-- OUTBUF and WORDS_OUT cleared, as a failing GEN does (R148). -/
theorem State.Inv.raiseGen (h : s.Inv) {e : Err} (he : e ≠ .allocationFailure) : (s.raiseGen e).Inv :=
  { h.complete he with
    outbufSize := List.length_replicate
    wordsOutMax := Nat.zero_le _
    outbufRest := fun _ _ => getD_replicate_zero _ _
    onlyKsHasOutput := fun _ => rfl }

theorem State.Inv.freshContext (h : s.Inv) {c : Ctx} (hc : c = .ks ∨ c = .mac) : (s.freshContext c).Inv where
  cfgOk := h.cfgOk
  msgbufSize := h.msgbufSize
  outbufSize := List.length_replicate
  wordsOutMax := Nat.zero_le _
  outbufRest _ _ := getD_replicate_zero _ _
  busyErr := h.busyErr
  errRaised := h.errRaised
  onlyKsHasOutput _ := rfl
  onlyDoneHasTag _ := rfl
  uninitWiped hu := by rcases hc with rfl | rfl <;> cases hu
  ksUnused _ := ⟨rfl, rfl, rfl, rfl⟩
  macDrawn _ := by simp
  doneWiped hd := by rcases hc with rfl | rfl <;> cases hd
  cellRange _ := keyedCipher_inRange _ _ _

theorem State.Inv.generate (h : s.Inv) (hctx : s.ctx = .ks) {n : Nat} (hn : n ≤ s.cfg.capacityWords) :
    (s.generate n).Inv := by
  obtain ⟨_, hcap, _⟩ := (config_ok_iff _).mp h.cfgOk
  have hout : (s.generate n).wordsOut.toNat = n := by
    rw [State.generate_wordsOut, BitVec.toNat_ofNat, Nat.mod_eq_of_lt (by omega)]
  exact { h with
    outbufSize := by
      rw [State.generate_outbuf, List.length_append, words_length, List.length_replicate]
      exact Nat.add_sub_of_le hn
    wordsOutMax := hout.trans_le hn
    outbufRest := fun j hj => by
      rw [hout] at hj
      rw [State.generate_outbuf, List.getD_append_right _ _ _ _ (by simpa using hj), getD_replicate_zero]
    onlyKsHasOutput := fun hne => absurd hctx hne
    uninitWiped := fun hu => by cases hctx.symm.trans hu
    macDrawn := fun hm => by cases hctx.symm.trans hm
    doneWiped := fun hd => by cases hctx.symm.trans hd
    cellRange := fun hc => afterWords_inRange n (h.cellRange hc) }

theorem State.update_mlen_toNat (s : State) {n : Nat} (hlen : s.mlen.toNat + n < 2 ^ 64) :
    (s.update n).mlen.toNat = s.mlen.toNat + n := by
  rw [State.update_mlen, BitVec.toNat_add, BitVec.toNat_ofNat, Nat.add_mod_mod, Nat.mod_eq_of_lt hlen]

theorem State.Inv.update (h : s.Inv) (hctx : s.ctx = .mac) {n : Nat} (hlen : s.mlen.toNat + n < 2 ^ 64) :
    (s.update n).Inv :=
  { h with
    uninitWiped := fun hu => by cases hctx.symm.trans hu
    ksUnused := fun hk => by cases hctx.symm.trans hk
    macDrawn := fun _ => by
      rw [s.update_mlen_toNat hlen]
      exact accumulate_drawn _ _ _ _ _ (h.macDrawn hctx) hlen
    doneWiped := fun hd => by cases hctx.symm.trans hd
    cellRange := fun hc => accumulate_inRange _ _ _ (h.cellRange hc) }

theorem State.Inv.finalize (h : s.Inv) (hctx : s.ctx = .mac) : s.finalize.Inv :=
  { h with
    onlyKsHasOutput := fun _ => h.onlyKsHasOutput (by rw [hctx]; decide)
    onlyDoneHasTag := fun hne => absurd rfl hne
    uninitWiped := nofun
    ksUnused := nofun
    macDrawn := nofun
    doneWiped := fun _ => ⟨rfl, rfl, finalStream_ksidx s (h.macDrawn hctx)⟩
    cellRange := nofun }

theorem State.Inv.command (h : s.Inv) {i : Instr} (ht : CommandEffect s i t) : t.Inv := by
  cases ht with
  | status _ _ he => exact h.complete he
  | genFails _ _ he => exact h.raiseGen he
  | init => exact (h.freshContext (.inl rfl)).complete nofun
  | macinit => exact (h.freshContext (.inr rfl)).complete nofun
  | gen n hctx hn => exact (h.generate hctx hn).complete nofun
  | destroy => exact h.wipe.complete nofun
  | macupd n hctx _ hlen => exact (h.update hctx hlen).complete nofun
  | macfinal hctx => exact (h.finalize hctx).complete nofun

end

/-- Settles O24, by the four things a step can be. -/
theorem stepKeepsTheInvariant : Obligations.StepKeepsTheInvariant := by
  intro s t hinv h
  rcases step_cases s with ⟨w, _, hs⟩ | ⟨_, ⟨_, hs⟩ | ⟨x, rest, _, hs⟩ | ⟨rest, _, hs⟩⟩ <;> rw [hs] at h
  · exact hinv.command (exec_cmd_effect h)
  · cases h
    exact hinv.took []
  · exact (hinv.took rest).txn h
  · cases h
    exact (hinv.took rest).hardReset

end Sys2Proof.Machine
end

section
/-! Live contexts are genuine: INIT and MACINIT start one, GEN and MACUPD carry it on, and nothing else touches what
makes it so (R27, R142, R164). -/

namespace Sys2Proof.Machine

section
variable {s t : State} {k iv : Quad}

theorem State.freshContext_ksTracks (s : State) : (s.freshContext .ks).KsTracks s.key s.iv 0 :=
  ⟨rfl, rfl⟩

theorem State.KsTracks.generate {drawn : Nat} (h : s.KsTracks k iv drawn) (n : Nat) :
    (s.generate n).KsTracks k iv (drawn + n) :=
  ⟨h.ctx, by rw [afterWords_add]; exact congrArg (afterWords _ n) h.cipher⟩

/-- A context tracks a message when its accumulator and generator do and MLEN is the message's length. -/
theorem State.MacTracks.of_acc {m : List Bool} (hctx : s.ctx = .mac) (hlen : s.mlen.toNat = m.length)
    (h : Acc.Tracks s.cfg.zeroRep k iv m ⟨s.t, s.stream⟩) : s.MacTracks k iv m :=
  ⟨hctx, hlen, h.stream.cipher, h.stream.kbuf0, h.stream.kbuf1, h.t, h.drawn⟩

theorem State.freshContext_macTracks (s : State) : (s.freshContext .mac).MacTracks s.key s.iv [] :=
  .of_acc rfl rfl ⟨.keyed _ _ _, rfl, by simp⟩

theorem State.MacTracks.update {m : List Bool} (h : s.MacTracks k iv m) {n : Nat}
    (hlen : s.mlen.toNat + n < 2 ^ 64) : (s.update n).MacTracks k iv (m ++ chunkBits s.msgbuf n) := by
  refine .of_acc h.ctx ?_ ?_
  · rw [s.update_mlen_toNat hlen, h.mlen, List.length_append, chunkBits_length]
  · have hacc := h.acc.accumulate s.msgbuf n (by rw [← h.mlen]; exact hlen.le)
    rw [← h.mlen] at hacc
    exact hacc

/-- Only the lifecycle state, the generator, T, MLEN and the parameters make a context genuine. -/
theorem State.Genuine.congr (h : s.Genuine) (hcfg : t.cfg = s.cfg) (hctx : t.ctx = s.ctx)
    (hstream : t.stream = s.stream) (ht : t.t = s.t) (hmlen : t.mlen = s.mlen) : t.Genuine where
  ks hks := by
    obtain ⟨k, iv, n, hs⟩ := h.ks (hctx.symm.trans hks)
    exact ⟨k, iv, n, hks, by rw [hcfg, hstream]; exact hs.cipher⟩
  mac hmac := by
    obtain ⟨k, iv, m, hs⟩ := h.mac (hctx.symm.trans hmac)
    exact ⟨k, iv, m, .of_acc hmac (by rw [hmlen, hs.mlen]) (by rw [hcfg, ht, hstream]; exact hs.acc)⟩

theorem State.Genuine.of_sameEngines (h : s.Genuine) (hst : s.SameEngines t) : t.Genuine := by
  rw [hst]
  exact h.congr rfl rfl rfl rfl rfl

theorem State.Genuine.complete (h : s.Genuine) (e : Err) : (s.complete e).Genuine :=
  h.of_sameEngines (s.sameEngines_complete e)

theorem State.freshContext_ks_genuine (s : State) : (s.freshContext .ks).Genuine :=
  ⟨fun _ => ⟨_, _, _, s.freshContext_ksTracks⟩, nofun⟩

theorem State.freshContext_mac_genuine (s : State) : (s.freshContext .mac).Genuine :=
  ⟨nofun, fun _ => ⟨_, _, _, s.freshContext_macTracks⟩⟩

theorem State.Genuine.generate (h : s.Genuine) (hctx : s.ctx = .ks) (n : Nat) : (s.generate n).Genuine where
  ks _ := by
    obtain ⟨k, iv, drawn, hks⟩ := h.ks hctx
    exact ⟨k, iv, drawn + n, hks.generate n⟩
  mac hm := by cases hctx.symm.trans hm

theorem State.Genuine.update (h : s.Genuine) (hctx : s.ctx = .mac) {n : Nat} (hlen : s.mlen.toNat + n < 2 ^ 64) :
    (s.update n).Genuine where
  ks hk := by cases hctx.symm.trans hk
  mac _ := by
    obtain ⟨k, iv, m, hmac⟩ := h.mac hctx
    exact ⟨k, iv, _, hmac.update hlen⟩

theorem State.Genuine.raiseGen (h : s.Genuine) (e : Err) : (s.raiseGen e).Genuine :=
  h.congr rfl rfl rfl rfl rfl

theorem State.Genuine.command (h : s.Genuine) {i : Instr} (ht : CommandEffect s i t) : t.Genuine := by
  cases ht with
  | status _ e => exact h.complete e
  | genFails _ e => exact h.raiseGen e
  | init => exact s.freshContext_ks_genuine.complete .ok
  | macinit => exact s.freshContext_mac_genuine.complete .ok
  | gen n hctx => exact (h.generate hctx _).complete .ok
  | destroy => exact ⟨nofun, nofun⟩
  | macupd n hctx _ hlen => exact (h.update hctx hlen).complete .ok
  | macfinal => exact ⟨nofun, nofun⟩

end

/-- Settles O25, by the four things a step can be; what the context is does not need the invariant. -/
theorem stepKeepsContextsGenuine : Obligations.StepKeepsContextsGenuine := by
  intro s t _ hgen h
  rcases step_cases s with ⟨w, _, hs⟩ | ⟨_, ⟨_, hs⟩ | ⟨x, rest, _, hs⟩ | ⟨rest, _, hs⟩⟩ <;> rw [hs] at h
  · exact hgen.command (exec_cmd_effect h)
  · cases h
    exact hgen.of_sameEngines (s.sameEngines_took [])
  · exact hgen.of_sameEngines ((s.sameEngines_took rest).trans (exec_txn_sameEngines h))
  · cases h
    exact ⟨nofun, nofun⟩

end Sys2Proof.Machine
end

section
/-! The window: the register map region by region (R51), the addresses (R50) and the bytes of an output word (R54, R57);
and the step as the instruction it runs (R62, R210, R244). -/

namespace Sys2Proof.Machine

/-! The register map. -/

/-- Below 0x100, where no buffer begins, the map is that of the fixed registers. -/
theorem regAt_eq_fixed_iff (cfg : Config) (off : Offset) {r : Reg} (hr : r.offset < 0x100) :
    regAt cfg off = some r ↔ r.offset = off.toNat := by
  have hmsg : ∀ m, r ≠ .msgbuf m := by rintro m rfl; simp only [Reg.offset] at hr; omega
  have hout : ∀ j, r ≠ .outbuf j := by rintro j rfl; simp only [Reg.offset] at hr; omega
  by_cases h : off.toNat < 0x100
  · simp only [regAt, if_pos h, fixedRegAt_eq]
    exact ⟨fun h => h.1, fun h => ⟨h, hmsg, hout⟩⟩
  · have hne : r.offset ≠ off.toNat := by omega
    simp only [regAt, if_neg h, hne, iff_false]
    split_ifs <;> simp [(hmsg _).symm, (hout _).symm]

/-- No word of a buffer is among the fixed registers. -/
theorem fixedRegAt_ne_buffer (a n : Nat) : fixedRegAt a ≠ some (.msgbuf n) ∧ fixedRegAt a ≠ some (.outbuf n) := by
  simp [fixedRegAt_eq]

/-- The word of MSGBUF is read off in MSGBUF's own region, which holds all of it because MSGBUF_WORDS is at most 64; in
every other region the offsets exclude it. -/
theorem regAt_eq_msgbuf_iff {cfg : Config} {off : Offset} (hsize : cfg.msgbufWords ≤ 64) (hal : off.toNat % 4 = 0)
    (m : Nat) : regAt cfg off = some (.msgbuf m) ↔ m < cfg.msgbufWords ∧ 0x100 + 4 * m = off.toNat := by
  simp only [regAt]
  split_ifs <;> simp [fixedRegAt_ne_buffer] <;> omega

/-- The same of OUTBUF, whose region holds all of it because CAPACITY_WORDS is at most 4096. -/
theorem regAt_eq_outbuf_iff {cfg : Config} {off : Offset} (hsize : cfg.capacityWords ≤ 4096)
    (hal : off.toNat % 4 = 0) (j : Nat) :
    regAt cfg off = some (.outbuf j) ↔ j < cfg.capacityWords ∧ 0x4000 + 4 * j = off.toNat := by
  simp only [regAt]
  split_ifs <;> simp [fixedRegAt_ne_buffer] <;> omega

/-- Settles O6, by the three regions of the map: the fixed registers, MSGBUF and OUTBUF. -/
theorem registerMapExact : Obligations.RegisterMapExact := by
  intro cfg off r hok hal
  obtain ⟨_, hcap, _, hmsg, _⟩ := (config_ok_iff cfg).mp hok
  cases r with
  | msgbuf m => simpa [Reg.inMap, Reg.offset] using regAt_eq_msgbuf_iff hmsg hal m
  | outbuf j => simpa [Reg.inMap, Reg.offset] using regAt_eq_outbuf_iff hcap hal j
  | key n | iv n => simpa [Reg.inMap] using regAt_eq_fixed_iff cfg off (by simp only [Reg.offset]; omega)
  | _ => simpa [Reg.inMap] using regAt_eq_fixed_iff cfg off (by decide)

/-! Addresses of the window. -/

theorem offsetOf_eq_none_iff (cfg : Config) (addr : Nat) :
    cfg.offsetOf addr = none ↔ addr < cfg.base ∨ cfg.base + 65536 ≤ addr := by
  simp only [Config.offsetOf, ite_eq_right_iff, reduceCtorEq, imp_false]
  omega

theorem offsetOf_eq_some_iff (cfg : Config) (off : Offset) (addr : Nat) :
    cfg.offsetOf addr = some off ↔ addr = cfg.addressOf off := by
  have hoff := off.isLt
  by_cases h : cfg.base ≤ addr ∧ addr < cfg.base + 65536
  · rw [Config.offsetOf, if_pos h, Config.addressOf, Option.some_inj, BitVec.toNat_eq, BitVec.toNat_ofNat]
    omega
  · simp only [Config.offsetOf, if_neg h, Config.addressOf, reduceCtorEq, false_iff]
    omega

/-- Settles O12, by whether the address lies in the window. -/
theorem windowAddressesCorrespond : Obligations.WindowAddressesCorrespond :=
  fun cfg off addr => ⟨offsetOf_eq_some_iff cfg off addr, offsetOf_eq_none_iff cfg addr⟩

/-! Output bytes. -/

/-- Four bytes leave for each word, so byte 4j + b of the stream is byte b of word j. -/
theorem keystreamBytes_getD (ws : List Word) (j : Nat) {b : Nat} (hj : j < ws.length) (hb : b < 4) :
    (keystreamBytes ws).getD (4 * j + b) 0 = (wordBytes (ws.getD j 0)).getD b 0 := by
  induction ws generalizing j with
  | nil => cases hj
  | cons w ws ih =>
    have hlen : (wordBytes w).length = 4 := rfl
    rw [keystreamBytes, List.flatMap_cons]
    cases j with
    | zero => rw [List.getD_append _ _ _ _ (by omega)]; simp
    | succ j =>
      rw [List.getD_append_right _ _ _ _ (by omega), hlen, show 4 * (j + 1) + b - 4 = 4 * j + b by omega]
      exact ih j (Nat.lt_of_succ_lt_succ hj)

theorem wordBytes_getD_toNat (w : Word) {b : Nat} (hb : b < 4) :
    ((wordBytes w).getD b 0).toNat = w.toNat / 2 ^ (24 - 8 * b) % 2 ^ 8 := by
  have hbyte : (wordBytes w).getD b 0 = w.extractLsb' (24 - 8 * b) 8 := by
    interval_cases b <;> rfl
  rw [hbyte, BitVec.extractLsb'_toNat, Nat.shiftRight_eq_div_pow]

/-- Settles O58, by the bytes of each word. -/
theorem outputBytesAreBigEndian : Obligations.OutputBytesAreBigEndian := by
  intro ws j b hj hb
  rw [keystreamBytes_getD ws j hj hb, wordBytes_getD_toNat _ hb]

/-! The step, once it is known what is in flight and what is at the port (R210, R244). -/

section
variable {s : State}

theorem step_completion {w : Word} (hp : s.pending = some ⟨w, 0⟩) : step s = exec (decodeCmd w) s := by
  rcases step_cases s with ⟨w', hw, h⟩ | ⟨hne, _⟩
  · cases hp.symm.trans hw
    exact h
  · exact absurd hp (hne w)

theorem step_txn {t : BusTxn} {rest : List PortEvent} (hp : ∀ w, s.pending ≠ some ⟨w, 0⟩)
    (hq : s.port = .txn t :: rest) : step s = exec (decodeTxn t) (s.took rest) := by
  rcases step_cases s with ⟨w, hw, _⟩ | ⟨_, ⟨hq', _⟩ | ⟨t', rest', hq', h⟩ | ⟨rest', hq', _⟩⟩
  · exact absurd hw (hp w)
  · cases hq.symm.trans hq'
  · cases hq.symm.trans hq'
    exact h
  · cases hq.symm.trans hq'

theorem step_idle (hp : ∀ w, s.pending ≠ some ⟨w, 0⟩) (hq : s.port = []) : step s = .next (s.took []) := by
  rcases step_cases s with ⟨w, hw, _⟩ | ⟨_, ⟨_, h⟩ | ⟨t', rest', hq', _⟩ | ⟨rest', hq', _⟩⟩
  · exact absurd hw (hp w)
  · exact h
  · cases hq.symm.trans hq'
  · cases hq.symm.trans hq'

theorem State.took_of_none (hp : s.pending = none) (rest : List PortEvent) :
    s.took rest = { s with port := rest } := by
  rw [State.took, hp]; rfl

theorem State.took_of_succ {w : Word} {n : Nat} (hp : s.pending = some ⟨w, n + 1⟩) (rest : List PortEvent) :
    s.took rest = { s with port := rest, pending := some ⟨w, n⟩ } := by
  rw [State.took, hp]; rfl

end

/-- Settles O13, by what is in flight and what is at the port. -/
theorem stepRunsTheDecodedInstruction : Obligations.StepRunsTheDecodedInstruction := by
  intro s
  refine ⟨fun w hp => step_completion hp, fun t rest hp hq => ?_, fun t rest w n hp hq => ?_, fun w n hp hq => ?_,
    fun hp hq => ?_⟩
  · rw [step_txn (by simp [hp]) hq, State.took_of_none hp]
  · rw [step_txn (by simp [hp]) hq, State.took_of_succ hp]
  · rw [step_idle (by simp [hp]) hq, State.took_of_succ hp, ← hq]
  · rw [step_idle (by simp [hp]) hq, State.took_of_none hp, ← hq]

end Sys2Proof.Machine
end

section
/-! Encoding (R80-R84): what the fields of an encoded word are, what a word is in terms of its fields, and which words
are illegal. -/

namespace Sys2Proof
open Laws Machine

/-! The fields of an encoded word (R80, R82). -/

theorem countField_append (o : BitVec 4) (n : BitVec 28) : countField (o ++ n) = n :=
  RowBits.reservedZ_append o n

/-- A word of format K has its reserved field 0 and carries its OPC and its two lengths. -/
theorem formatK_fields (o : BitVec 4) (klen ivlen : Byte) :
    opcField (o ++ 0#12 ++ klen ++ ivlen) = o ∧ reservedK (o ++ 0#12 ++ klen ++ ivlen) = 0 ∧
      klenField (o ++ 0#12 ++ klen ++ ivlen) = klen ∧ ivlenField (o ++ 0#12 ++ klen ++ ivlen) = ivlen := by
  have hlengths : (o ++ (0#12 ++ (klen ++ ivlen))).extractLsb' 0 16 = klen ++ ivlen :=
    ((append_inj _ _ _ _).mp ((reservedZ_eq _).symm.trans (RowBits.reservedZ_append o (0#12 ++ (klen ++ ivlen))))).2
  rw [RowBits.append_lengths]
  exact ⟨RowBits.opcField_append _ _, RowBits.reservedK_append _ _ _,
    (append_inj _ _ _ _).mp ((lengths_eq _).symm.trans hlengths)⟩

/-- A word with the reserved field of format K at 0 is its OPC and its two lengths. -/
theorem formatK_eq {w : Word} (h : reservedK w = 0) : opcField w ++ 0#12 ++ klenField w ++ ivlenField w = w := by
  conv_rhs => rw [word_eq_opc w, reservedZ_eq w, h, lengths_eq w]
  exact RowBits.append_lengths _ _ _

/-! Descriptors (R81). -/

theorem decodeTxn_append (write : Bool) (off : Offset) (size : Nat) (data : Word) :
    decodeTxn ⟨BitVec.ofBool write ++ off, size, data⟩ = if write then .wr off size data else .rd off size := by
  have hbit : (BitVec.ofBool write ++ off).getLsbD 16 = write := by cases write <;> rw [BitVec.getLsbD_append] <;> rfl
  have hoff : (BitVec.ofBool write ++ off).extractLsb' 0 16 = off := BitVec.extractLsb'_append_eq_right
  simp only [decodeTxn, hbit, hoff]

/-- A read's descriptor is a number below 2^16. -/
theorem desc_lt_iff (write : Bool) (off : Offset) : (BitVec.ofBool write ++ off).toNat < 2 ^ 16 ↔ write = false := by
  rw [BitVec.toNat_append]
  cases write with
  | false => simpa using off.isLt
  | true => simpa using Nat.left_le_or (n := 65536) (m := off.toNat)

/-! Illegal words (R84). -/

/-- The decoder calls a word illegal exactly when no row of the table holds of it. -/
theorem decodeCmd_eq_illegal_iff (w : Word) : decodeCmd w = .illegal w ↔ legalWord w = false := by
  rcases decodeCmd_cases w with ⟨rfl, _⟩ | ⟨ho, hk, e⟩ | ⟨ho, e⟩ | ⟨rfl, _⟩ | ⟨ho, hk, e⟩ | ⟨ho, e⟩ | ⟨rfl, _⟩ | ⟨hl, e⟩
  · decide
  · simp [e, legalWord_eq, commandRows_holds, ho, hk]
  · simp [e, legalWord_eq, commandRows_holds, ho]
  · decide
  · simp [e, legalWord_eq, commandRows_holds, ho, hk]
  · simp [e, legalWord_eq, commandRows_holds, ho]
  · decide
  · simp [e, hl]

/-- No two rows share a word, because each has an OPC of its own. -/
theorem commandRows_filter_length (w : Word) :
    (commandRows.filter (·.holds w)).length = if legalWord w then 1 else 0 := by
  have hcount : (commandRows.filter (·.holds w)).length = (commandRows.map (·.holds w)).countP id := by
    rw [List.countP_map, List.countP_eq_length_filter]; rfl
  rw [hcount, legalWord_eq, commandRows_holds]
  generalize decide (reservedZ w = 0) = z
  generalize decide (reservedK w = 0) = k
  generalize opcField w = o
  revert o z k
  decide

theorem opcField_eq_iff (w : Word) (o : BitVec 4) : opcField w = o ↔ w.toNat / 2 ^ 28 = o.toNat := by
  rw [BitVec.toNat_eq, opcField_toNat]

theorem reservedZ_eq_zero_iff (w : Word) : reservedZ w = 0 ↔ w.toNat % 2 ^ 28 = 0 := by
  rw [BitVec.toNat_eq, reservedZ_toNat]; rfl

theorem reservedK_eq_zero_iff (w : Word) : reservedK w = 0 ↔ w.toNat / 2 ^ 16 % 2 ^ 12 = 0 := by
  rw [BitVec.toNat_eq, reservedK_toNat]; rfl

/-- R84's two conditions, in numbers. -/
theorem legalWord_eq_false_iff (w : Word) :
    legalWord w = false ↔
      7 ≤ w.toNat / 2 ^ 28 ∨
      ((w.toNat / 2 ^ 28 = 0 ∨ w.toNat / 2 ^ 28 = 3 ∨ w.toNat / 2 ^ 28 = 6) ∧ w.toNat % 2 ^ 28 ≠ 0) ∨
      ((w.toNat / 2 ^ 28 = 1 ∨ w.toNat / 2 ^ 28 = 4) ∧ w.toNat / 2 ^ 16 % 2 ^ 12 ≠ 0) := by
  rw [legalWord_eq, commandRows_holds]
  simp only [List.any_cons, List.any_nil, id_eq, Bool.or_false, Bool.or_eq_false_iff, Bool.and_eq_false_iff,
    decide_eq_false_iff_not, opcField_eq_iff, reservedZ_eq_zero_iff, reservedK_eq_zero_iff, BitVec.reduceToNat]
  generalize w.toNat / 2 ^ 28 = opc
  generalize w.toNat % 2 ^ 28 = z
  generalize w.toNat / 2 ^ 16 % 2 ^ 12 = k
  omega

/-! The operands the decoder reads (R82). -/

theorem decodeCmd_lengths {w : Word} {klen ivlen : Byte}
    (h : decodeCmd w = .init klen ivlen ∨ decodeCmd w = .macinit klen ivlen) :
    klen = klenField w ∧ ivlen = ivlenField w := by
  rcases decodeCmd_cases w with ⟨_, e⟩ | ⟨_, _, e⟩ | ⟨_, e⟩ | ⟨_, e⟩ | ⟨_, _, e⟩ | ⟨_, e⟩ | ⟨_, e⟩ | ⟨_, e⟩ <;>
    rw [e] at h <;> rcases h with h | h <;> cases h <;> exact ⟨rfl, rfl⟩

theorem decodeCmd_count {w : Word} {n : BitVec 28} (h : decodeCmd w = .gen n ∨ decodeCmd w = .macupd n) :
    n = countField w := by
  rcases decodeCmd_cases w with ⟨_, e⟩ | ⟨_, _, e⟩ | ⟨_, e⟩ | ⟨_, e⟩ | ⟨_, _, e⟩ | ⟨_, e⟩ | ⟨_, e⟩ | ⟨_, e⟩ <;>
    rw [e] at h <;> rcases h with h | h <;> cases h <;> rfl

/-! Both directions. -/

/-- Settles O1: the fields of each encoded form are the instruction's operands; ILLEGAL is the word no row holds of. -/
theorem decodeEncodeRoundTrip : Obligations.DecodeEncodeRoundTrip := by
  intro i hi
  cases i with
  | nop | destroy | macfinal => rfl
  | init klen ivlen =>
    obtain ⟨ho, hr, hk, hv⟩ := formatK_fields 1#4 klen ivlen
    rw [encode, decode, decodeCmd, ho, hr, hk, hv]; rfl
  | macinit klen ivlen =>
    obtain ⟨ho, hr, hk, hv⟩ := formatK_fields 4#4 klen ivlen
    rw [encode, decode, decodeCmd, ho, hr, hk, hv]; rfl
  | gen n | macupd n => simp [encode, decode, decodeCmd, RowBits.opcField_append, countField_append]
  | illegal w => exact (decodeCmd_eq_illegal_iff w).mpr (by simpa [Instr.wellFormed] using hi)
  | rd off size => exact decodeTxn_append false off size 0
  | wr off size data => exact decodeTxn_append true off size data

theorem encode_decodeCmd (w : Word) : encode (decodeCmd w) = .cmd w := by
  have hK := formatK_eq (w := w)
  have hN : opcField w ++ countField w = w := (word_eq_opc w).symm
  rcases decodeCmd_cases w with ⟨rfl, e⟩ | ⟨ho, hk, e⟩ | ⟨ho, e⟩ | ⟨rfl, e⟩ | ⟨ho, hk, e⟩ | ⟨ho, e⟩ | ⟨rfl, e⟩ |
    ⟨_, e⟩ <;> rw [e]
  · rfl
  · rw [ho] at hK; exact congrArg HostWord.cmd (hK hk)
  · rw [ho] at hN; exact congrArg HostWord.cmd hN
  · rfl
  · rw [ho] at hK; exact congrArg HostWord.cmd (hK hk)
  · rw [ho] at hN; exact congrArg HostWord.cmd hN
  · rfl
  · rfl

theorem wellFormed_decodeCmd (w : Word) : (decodeCmd w).wellFormed = true := by
  rcases decodeCmd_cases w with ⟨_, e⟩ | ⟨_, _, e⟩ | ⟨_, e⟩ | ⟨_, e⟩ | ⟨_, _, e⟩ | ⟨_, e⟩ | ⟨_, e⟩ | ⟨hl, e⟩ <;>
    simp only [e, Instr.wellFormed]
  rw [hl, Bool.not_false]

/-- Settles O2, by the decoder's cases for a command word and by bit 16 for a descriptor. -/
theorem encodeDecodeRoundTrip : Obligations.EncodeDecodeRoundTrip := by
  refine ⟨fun w => ⟨encode_decodeCmd w, wellFormed_decodeCmd w⟩, fun ⟨d, size, data⟩ => ?_⟩
  obtain ⟨write, off, rfl⟩ : ∃ write off, d = BitVec.ofBool write ++ off := ⟨_, _, desc_eq d⟩
  simp only [decodeTxn_append, desc_lt_iff]
  cases write <;> exact ⟨rfl, rfl⟩

/-- Settles O5: the operands are the fields, and the fields are numbers (`klenField_toNat` and its like). -/
theorem operandFieldsAreUnsigned : Obligations.OperandFieldsAreUnsigned := by
  refine fun w => ⟨fun k v h => ?_, fun n h => ?_⟩
  · obtain ⟨rfl, rfl⟩ := decodeCmd_lengths h
    exact ⟨klenField_toNat w, ivlenField_toNat w⟩
  · obtain rfl := decodeCmd_count h
    exact countField_toNat w

/-- Settles O4, by running the decoder on each word. -/
theorem tableWordsDecode : Obligations.TableWordsDecode := by
  unfold Obligations.TableWordsDecode
  decide

end Sys2Proof
end

section
/-! What a write to an idle core does (R184, R185): an illegal word is accepted like any command, and the scripts `key`
and `iv` fill the staging registers (R88). -/

namespace Sys2Proof.Machine

variable {s : State}

/-- A write that reaches a register of an idle core is done and answered OKAY (R184). -/
theorem exec_wr_idle {off : Offset} {size : Nat} {r : Reg} (hp : s.pending = none)
    (hr : target s.cfg off size = some r) (v : Word) :
    exec (.wr off size v) s = .next ((s.writeReg r v).answer (.wrote .okay)) := by
  rcases execWr_eq off size v s with ⟨hr', _⟩ | ⟨_, _, hbusy, _⟩ | ⟨r', hr', _, h⟩
  · cases hr.symm.trans hr'
  · cases ((busy_eq_false_iff s).mpr hp).symm.trans hbusy
  · cases hr.symm.trans hr'
    exact h

/-- Settles O3: the rows of the table in numbers, then acceptance and completion of the illegal word. -/
theorem illegalWordsExact : Obligations.IllegalWordsExact := by
  intro w opc illegal
  have hlegal : illegal ↔ legalWord w = false := (legalWord_eq_false_iff w).symm
  have hdec : illegal ↔ decodeCmd w = .illegal w := hlegal.trans (decodeCmd_eq_illegal_iff w).symm
  refine ⟨hdec, ?_, fun h s => ⟨fun hp => ⟨_, exec_wr_idle (off := 4#16) (r := .cmd) hp rfl w⟩, fun hp => ?_, rfl⟩⟩
  · rw [hlegal, commandRows_filter_length]
    cases legalWord w <;> simp
  · rw [step_completion hp, hdec.mp h]; rfl

/-! The scripts `key` and `iv` (R88). -/

/-- What a `wr` of a script leaves when it reaches its register in an idle core (R184). -/
def State.wrote (s : State) (w : Reg × Word) : State := (s.writeReg w.1 w.2).answer (.wrote .okay)

theorem State.wrote_key (n : Fin 4) (v : Word) :
    s.wrote (.key n, v) = { s with key := s.key.write n v, replies := .wrote .okay :: s.replies } := rfl

theorem State.wrote_iv (n : Fin 4) (v : Word) :
    s.wrote (.iv n, v) = { s with iv := s.iv.write n v, replies := .wrote .okay :: s.replies } := rfl

/-- KEY0..KEY3 and IV0..IV3 (R28, R29). -/
def Reg.IsKeyOrIv (r : Reg) : Prop := ∃ n, r = .key n ∨ r = .iv n

theorem Reg.IsKeyOrIv.target {r : Reg} (h : r.IsKeyOrIv) (cfg : Config) :
    target cfg (BitVec.ofNat 16 r.offset) 4 = some r := by
  rcases h with ⟨n, rfl | rfl⟩ <;> fin_cases n <;> rfl

theorem Reg.IsKeyOrIv.wrote_pending {r : Reg} (h : r.IsKeyOrIv) (v : Word) : (s.wrote (r, v)).pending = s.pending := by
  rcases h with ⟨n, rfl | rfl⟩ <;> rfl

theorem Reg.IsKeyOrIv.wrote_port {r : Reg} (h : r.IsKeyOrIv) (v : Word) : (s.wrote (r, v)).port = s.port := by
  rcases h with ⟨n, rfl | rfl⟩ <;> rfl

theorem step_wrEvent {r : Reg} {v : Word} {rest : List PortEvent} (hp : s.pending = none)
    (hq : s.port = wrEvent r v :: rest) (hr : target s.cfg (BitVec.ofNat 16 r.offset) 4 = some r) :
    step s = .next ({ s with port := rest }.wrote (r, v)) := by
  have hdec : decodeTxn ⟨1#1 ++ BitVec.ofNat 16 r.offset, 4, v⟩ = .wr (BitVec.ofNat 16 r.offset) 4 v :=
    decodeTxn_append true _ 4 v
  rw [step_txn (by simp [hp]) hq, State.took_of_none hp, hdec]
  exact exec_wr_idle (s := { s with port := rest }) hp hr v

/-- With no command in flight an event of a script takes one step. -/
theorem perform_cons_of_none (hp : s.pending = none) (e : PortEvent) (es : List PortEvent) :
    perform (e :: es) s = (runSteps 1 { s with port := [e] }).bind (perform es) := by
  rw [perform]
  split
  · next h => cases hp.symm.trans h
  · rfl

theorem perform_wrEvent_cons {r : Reg} (hp : s.pending = none)
    (hr : target s.cfg (BitVec.ofNat 16 r.offset) 4 = some r) (v : Word) (es : List PortEvent) :
    perform (wrEvent r v :: es) s = perform es ({ s with port := [] }.wrote (r, v)) := by
  have hstep := step_wrEvent (s := { s with port := [wrEvent r v] }) hp rfl hr
  rw [perform_cons_of_none hp, runSteps, hstep]
  rfl

/-- Writes of key and IV registers from an idle core are done one after the other. -/
theorem perform_writes (ws : List (Reg × Word)) (hws : ∀ w ∈ ws, w.1.IsKeyOrIv) (hp : s.pending = none)
    (hq : s.port = []) : perform (ws.map fun w => wrEvent w.1 w.2) s = some (ws.foldl State.wrote s) := by
  induction ws generalizing s with
  | nil => rfl
  | cons w ws ih =>
    obtain ⟨hw, hws⟩ := List.forall_mem_cons.mp hws
    rw [List.map_cons, perform_wrEvent_cons hp (hw.target _), ← hq]
    exact ih hws ((hw.wrote_pending _).trans hp) ((hw.wrote_port _).trans hq)

/-- The writes of the scripts `key` and `iv`, in their order. -/
def keyIvWrites (k iv : Quad) : List (Reg × Word) :=
  [(.key 0, k.w0), (.key 1, k.w1), (.key 2, k.w2), (.key 3, k.w3),
   (.iv 0, iv.w0), (.iv 1, iv.w1), (.iv 2, iv.w2), (.iv 3, iv.w3)]

theorem keyEvents_append_ivEvents (k iv : Quad) :
    keyEvents k ++ ivEvents iv = (keyIvWrites k iv).map fun w => wrEvent w.1 w.2 := rfl

theorem keyIvWrites_isKeyOrIv (k iv : Quad) : ∀ w ∈ keyIvWrites k iv, w.1.IsKeyOrIv := by
  simp [keyIvWrites, Reg.IsKeyOrIv]

/-- Eight writes, of every word of the two quads, leave nothing of what stood there. -/
theorem foldl_wrote_keyIvWrites (k iv : Quad) :
    (keyIvWrites k iv).foldl State.wrote s =
      { s with key := k, iv := iv, replies := List.replicate 8 (.wrote .okay) ++ s.replies } := by
  simp only [keyIvWrites, List.foldl_cons, List.foldl_nil, State.wrote_key, State.wrote_iv]
  rfl

/-- Presenting events replaces whatever stood at the port. -/
theorem perform_clear_port (e : PortEvent) (es : List PortEvent) :
    perform (e :: es) s = perform (e :: es) { s with port := [] } := rfl

/-- Settles O59: the scripts are eight writes, done one after the other. -/
theorem keyScriptsFillTheStagingRegisters : Obligations.KeyScriptsFillTheStagingRegisters := by
  intro s k iv hp
  have hrun : perform (keyEvents k ++ ivEvents iv) s =
      some ((keyIvWrites k iv).foldl State.wrote { s with port := [] }) :=
    (perform_clear_port _ _).trans (perform_writes _ (keyIvWrites_isKeyOrIv k iv) hp rfl)
  rw [foldl_wrote_keyIvWrites] at hrun
  exact ⟨_, hrun, rfl, rfl⟩

end Sys2Proof.Machine
end

section
/-! The field register (41_lfsr.md): ADD31 and rotations on residues, key loading in numbers, and what both advances
leave in each cell (R101-R109). -/

namespace Sys2Proof.Machine

/-! Arithmetic on patterns (R101-R103). -/

theorem cell_eq_zero_iff (c : Cell) : c = 0 ↔ c.toNat = 0 := BitVec.toNat_inj.symm

theorem add31_eq_zero_iff (a b : Cell) : add31 a b = 0 ↔ a = 0 ∧ b = 0 := by
  simp only [cell_eq_zero_iff]
  rw [add31_toNat, prime_eq]
  split <;> omega

theorem add31_of_add_eq_prime {a b : Cell} (h : a.toNat + b.toNat = prime) : add31 a b = 0x7FFFFFFF#31 := by
  apply BitVec.eq_of_toNat_eq
  rw [add31_toNat, h]
  rfl

/-- Settles O29, by the end-around carry on numbers. -/
theorem add31AddsResidues : Obligations.Add31AddsResidues :=
  fun a b => ⟨add31_mod a b, add31_eq_zero_iff a b, add31_of_add_eq_prime⟩

theorem rot31_allOnes (k : Nat) : rot31 (BitVec.allOnes 31) k = BitVec.allOnes 31 := by
  apply BitVec.eq_of_getLsbD_eq
  intro i hi
  have hk : k % 31 < 31 := Nat.mod_lt k (by decide)
  rw [rot31, BitVec.getLsbD_rotateLeft]
  simp only [BitVec.getLsbD_allOnes]
  grind

/-- Settles O30: the bits rotated out at the top count 2^31 = 1 modulo p each (`rot31_mod`). -/
theorem rotationMultipliesResidue : Obligations.RotationMultipliesResidue :=
  fun c k hk hk' => ⟨rot31_mod c k hk hk', rot31_allOnes k⟩

/-- REP on numbers (R102). -/
theorem rep_toNat (z : ZeroRep) (v : Cell) :
    (rep z v).toNat = if v.toNat = 0 then (if z = .zero then 0 else prime) else v.toNat := by
  by_cases hv : v = 0
  · subst hv
    cases z <;> rfl
  · rw [rep_eq_of_ne z v hv, if_neg (hv ∘ (cell_eq_zero_iff v).mpr)]

/-! Key loading (R104, R105). -/

theorem keyLoad_cell (k iv : Quad) (i : Fin 16) : (keyLoad k iv).cell i = loadedCell k iv i := by
  fin_cases i <;> rfl

/-- Byte i, counted from the top of its word (R55). -/
theorem Quad.byte_toNat (q : Quad) (i : Fin 16) :
    (q.byte i).toNat = (q.word ⟨i.val / 4, by omega⟩).toNat / 2 ^ (24 - 8 * (i.val % 4)) % 256 := by
  rw [Quad.byte, BitVec.extractLsb'_toNat, Nat.shiftRight_eq_div_pow]

theorem loadedCell_toNat (k iv : Quad) (i : Fin 16) :
    (loadedCell k iv i).toNat = (k.byte i).toNat * 2 ^ 23 + (pad i).toNat * 2 ^ 8 + (iv.byte i).toNat := by
  have hpad := (pad i).isLt
  have hiv := (iv.byte i).isLt
  rw [loadedCell, BitVec.toNat_append, BitVec.toNat_append, ← Nat.shiftLeft_add_eq_or_of_lt hiv,
    ← Nat.shiftLeft_add_eq_or_of_lt hpad, Nat.shiftLeft_eq, Nat.shiftLeft_eq]
  omega

/-- The table of R104. -/
theorem pad_toNat (i : Fin 16) :
    (pad i).toNat = [0x44D7, 0x26BC, 0x626B, 0x135E, 0x5789, 0x35E2, 0x7135, 0x09AF,
      0x4D78, 0x2F13, 0x6BC4, 0x1AF1, 0x5E26, 0x3C4D, 0x789A, 0x47AC].getD i.val 0 := by
  fin_cases i <;> rfl

/-- A cell in range under both settings of ZERO_REP stands for a residue that is not 0 (R21). -/
theorem cell_bounds_of_inRange {c : Cell} (h : ∀ z, cellInRange z c = true) :
    1 ≤ c.toNat ∧ c.toNat ≤ 2 ^ 31 - 2 := by
  have hones : c ≠ BitVec.allOnes 31 := bne_iff_ne.mp (h .zero)
  have hzero : c ≠ 0 := bne_iff_ne.mp (h .allOnes)
  rw [ne_eq, cell_eq_zero_iff] at hzero
  rw [ne_eq, ← BitVec.toNat_inj, BitVec.toNat_allOnes] at hones
  omega

/-- Settles O31, by the three fields of a loaded cell and the range both settings of ZERO_REP give it. -/
theorem keyLoadingPlacesEveryByte : Obligations.KeyLoadingPlacesEveryByte := by
  intro k iv i
  rw [keyLoad_cell]
  refine ⟨?_, cell_bounds_of_inRange fun z => loadedCell_inRange z k iv i⟩
  rw [loadedCell_toNat, pad_toNat, Quad.byte_toNat, Quad.byte_toNat]

/-! Feedback and the advances (R106-R109). -/

/-- Settles O32: `feedback_toNat`, with the taps named by their cell numbers. -/
theorem feedbackIsTheLinearCombination : Obligations.FeedbackIsTheLinearCombination :=
  feedback_toNat

@[simp] theorem shift_cell_castSucc (z : ZeroRep) (x : Cell) (l : Lfsr) (i : Fin 15) :
    (shift z x l).cell i.castSucc = l.cell i.succ := by
  fin_cases i <;> rfl

@[simp] theorem shift_cell_last (z : ZeroRep) (x : Cell) (l : Lfsr) : (shift z x l).cell 15 = rep z x := rfl

/-- Settles O33: both advances are shifts, of the residue that O33 names. -/
theorem advancesShiftAndStore : Obligations.AdvancesShiftAndStore := by
  intro z l u x
  refine ⟨fun hx => ⟨?_, shift_cell_castSucc z _ l⟩, fun hx => ⟨?_, shift_cell_castSucc z _ l⟩⟩
  · have hres : (residue (add31 (feedback l) u)).toNat = x := by rw [residue_toNat, add31_mod, hx]
    rw [advanceInit, shift_cell_last, rep_toNat, hres]
  · rw [advanceWork, shift_cell_last, rep_toNat, hx]

/-- Settles O35, by running both settings on the vector. -/
theorem zeroResidueIsStoredAsZeroRepSays : Obligations.ZeroResidueIsStoredAsZeroRepSays := by
  unfold Obligations.ZeroResidueIsStoredAsZeroRepSays
  decide

end Sys2Proof.Machine
end

section
/-! ADVANCE_WORK on residues (R110). The residue the advance stores is that of a combination in which S[0] has the
coefficient 257, a unit modulo p; so the cells after the advance determine S[0], and every residue is stored for some
S[0]. -/

namespace Sys2Proof.Machine

/-! Having the same residues is an equivalence. -/

theorem Lfsr.SameResidues.symm {a b : Lfsr} (h : a.SameResidues b) : b.SameResidues a := fun i => (h i).symm

theorem Lfsr.SameResidues.trans {a b c : Lfsr} (h : a.SameResidues b) (h' : b.SameResidues c) : a.SameResidues c :=
  fun i => (h i).trans (h' i)

/-- What the taps other than S[0] add to FEEDBACK (R106). -/
def Lfsr.upperTaps (l : Lfsr) : Nat :=
  2 ^ 15 * (l.cell 15).toNat + 2 ^ 17 * (l.cell 13).toNat + 2 ^ 21 * (l.cell 10).toNat + 2 ^ 20 * (l.cell 4).toNat

theorem feedback_toNat_eq (l : Lfsr) : (feedback l).toNat = (l.upperTaps + 257 * (l.cell 0).toNat) % prime :=
  feedback_toNat l

/-- The cells above S[0] determine the residue of `upperTaps`. -/
theorem upperTaps_modEq {a b : Lfsr} (h : ∀ i : Fin 15, (a.cell i.succ).toNat ≡ (b.cell i.succ).toNat [MOD prime]) :
    a.upperTaps ≡ b.upperTaps [MOD prime] := by
  have h15 := (h 14).mul_left (2 ^ 15)
  have h13 := (h 12).mul_left (2 ^ 17)
  have h10 := (h 9).mul_left (2 ^ 21)
  have h4 := (h 3).mul_left (2 ^ 20)
  exact ((h15.add h13).add h10).add h4

/-! The cells after the advance, on residues. -/

@[simp] theorem advanceWork_cell_castSucc (z : ZeroRep) (l : Lfsr) (i : Fin 15) :
    (advanceWork z l).cell i.castSucc = l.cell i.succ := shift_cell_castSucc z _ l i

theorem advanceWork_cell_last_modEq (z : ZeroRep) (l : Lfsr) :
    ((advanceWork z l).cell 15).toNat ≡ (feedback l).toNat [MOD prime] := rep_mod z (feedback l)

theorem advanceWork_sameResidues_iff (z : ZeroRep) (a b : Lfsr) :
    (advanceWork z a).SameResidues b ↔
      (∀ i : Fin 15, (a.cell i.succ).toNat ≡ (b.cell i.castSucc).toNat [MOD prime]) ∧
      (feedback a).toNat ≡ (b.cell 15).toNat [MOD prime] := by
  have htop := advanceWork_cell_last_modEq z a
  rw [Lfsr.SameResidues, Fin.forall_fin_succ']
  simp only [advanceWork_cell_castSucc]
  exact and_congr_right fun _ => ⟨htop.symm.trans, htop.trans⟩

theorem sameResidues_iff_succ (a b : Lfsr) :
    a.SameResidues b ↔ (a.cell 0).toNat ≡ (b.cell 0).toNat [MOD prime] ∧
      ∀ i : Fin 15, (a.cell i.succ).toNat ≡ (b.cell i.succ).toNat [MOD prime] :=
  Fin.forall_fin_succ

/-- When the cells above S[0] agree, FEEDBACK and S[0] have the same residues or neither has: 257 is a unit modulo p. -/
theorem feedback_modEq_iff {a b : Lfsr}
    (h : ∀ i : Fin 15, (a.cell i.succ).toNat ≡ (b.cell i.succ).toNat [MOD prime]) :
    (feedback a).toNat ≡ (feedback b).toNat [MOD prime] ↔ (a.cell 0).toNat ≡ (b.cell 0).toNat [MOD prime] := by
  have hcoprime : Nat.gcd prime 257 = 1 := by decide
  have htaps := upperTaps_modEq h
  rw [feedback_toNat_eq, feedback_toNat_eq, Nat.ModEq, Nat.mod_mod, Nat.mod_mod]
  constructor
  · intro hfeed
    exact (htaps.add_left_cancel hfeed).cancel_left_of_coprime hcoprime
  · intro h0
    exact htaps.add (h0.mul_left 257)

/-- ADVANCE_WORK is one to one on residues. -/
theorem advanceWork_sameResidues_advanceWork_iff (z : ZeroRep) (a b : Lfsr) :
    (advanceWork z a).SameResidues (advanceWork z b) ↔ a.SameResidues b := by
  have htop := advanceWork_cell_last_modEq z b
  rw [advanceWork_sameResidues_iff, sameResidues_iff_succ, and_comm]
  simp only [advanceWork_cell_castSucc]
  refine and_congr_left fun habove => ?_
  rw [← feedback_modEq_iff habove]
  exact ⟨fun h => h.trans htop, fun h => h.trans htop.symm⟩

theorem zero_cell (i : Fin 16) : Lfsr.zero.cell i = 0 := by
  fin_cases i <;> rfl

theorem advanceWork_zero_sameResidues (z : ZeroRep) : (advanceWork z Lfsr.zero).SameResidues Lfsr.zero := by
  rw [advanceWork_sameResidues_iff]
  refine ⟨fun i => ?_, ?_⟩
  · rw [zero_cell, zero_cell]
  · rw [feedback_toNat]; rfl

/-! A register before the advance. -/

/-- The register whose cells above S[0] are those of b but the top one, and whose S[0] is c. -/
def Lfsr.unshift (c : Cell) (b : Lfsr) : Lfsr :=
  { s0 := c, s1 := b.s0, s2 := b.s1, s3 := b.s2, s4 := b.s3, s5 := b.s4, s6 := b.s5, s7 := b.s6
    s8 := b.s7, s9 := b.s8, s10 := b.s9, s11 := b.s10, s12 := b.s11, s13 := b.s12, s14 := b.s13, s15 := b.s14 }

theorem unshift_cell_succ (c : Cell) (b : Lfsr) (i : Fin 15) : (b.unshift c).cell i.succ = b.cell i.castSucc := by
  fin_cases i <;> rfl

theorem exists_cell_modEq (n : Nat) : ∃ c : Cell, c.toNat ≡ n [MOD prime] := by
  have hlt : n % prime < prime := Nat.mod_lt n (by decide)
  refine ⟨BitVec.ofNat 31 (n % prime), ?_⟩
  rw [BitVec.toNat_ofNat, Nat.mod_eq_of_lt (hlt.trans (by decide))]
  exact Nat.mod_modEq n prime

/-- 257 has an inverse modulo p, so t + 257 * c takes every residue. -/
theorem exists_cell_add_mul_modEq (t y : Nat) : ∃ c : Cell, t + 257 * c.toNat ≡ y [MOD prime] := by
  have hinv : 257 * 16711935 ≡ 1 [MOD prime] := by decide
  obtain ⟨c, hc⟩ := exists_cell_modEq (16711935 * (y + (prime - 1) * t))
  refine ⟨c, ?_⟩
  calc t + 257 * c.toNat
      ≡ t + 257 * (16711935 * (y + (prime - 1) * t)) [MOD prime] := (hc.mul_left 257).add_left t
    _ = t + 257 * 16711935 * (y + (prime - 1) * t) := by rw [Nat.mul_assoc]
    _ ≡ t + 1 * (y + (prime - 1) * t) [MOD prime] := (hinv.mul_right _).add_left t
    _ = y + prime * t := by rw [prime_eq]; omega
    _ ≡ y [MOD prime] := Nat.add_mul_mod_self_left y prime t

/-- ADVANCE_WORK is onto on residues. -/
theorem exists_advanceWork_sameResidues (z : ZeroRep) (b : Lfsr) : ∃ a, (advanceWork z a).SameResidues b := by
  obtain ⟨c, hc⟩ := exists_cell_add_mul_modEq (b.unshift 0).upperTaps (b.cell 15).toNat
  refine ⟨b.unshift c, (advanceWork_sameResidues_iff z _ b).mpr ⟨fun i => ?_, ?_⟩⟩
  · rw [unshift_cell_succ]
  · rw [feedback_toNat_eq]
    exact (Nat.mod_modEq _ prime).trans hc

/-- Settles O34; the all-zero register keeps its residues, so being one to one says the last clause. -/
theorem workAdvanceIsABijectionOnResidues : Obligations.WorkAdvanceIsABijectionOnResidues := by
  intro z
  have hzero := advanceWork_zero_sameResidues z
  refine ⟨advanceWork_sameResidues_advanceWork_iff z, exists_advanceWork_sameResidues z, fun a => ?_⟩
  rw [← advanceWork_sameResidues_advanceWork_iff z a Lfsr.zero]
  exact ⟨fun h => h.trans hzero.symm, fun h => h.trans hzero⟩

end Sys2Proof.Machine
end

section
/-! The nonlinear layer (42_nonlinear.md): the words of BR and F in numbers, SBOX32 byte by byte, L1 and L2 bit by bit,
and the S-boxes as permutations (R120-R127). -/

namespace Sys2Proof.Machine

/-! Halves and bytes in numbers. -/

theorem toNat_append_eq_add {m n : Nat} (a : BitVec m) (b : BitVec n) :
    (a ++ b).toNat = a.toNat * 2 ^ n + b.toNat := by
  rw [BitVec.toNat_append, ← Nat.shiftLeft_add_eq_or_of_lt b.isLt, Nat.shiftLeft_eq]

/-- Bits k, k + 1, … of a word, as the division by 2^k. -/
theorem extractLsb'_eq_ofNat_div {w : Nat} (x : BitVec w) (k n : Nat) :
    x.extractLsb' k n = BitVec.ofNat n (x.toNat / 2 ^ k) := by
  rw [← Nat.shiftRight_eq_div_pow]
  rfl

theorem hi_toNat (c : Cell) : (hi c).toNat = c.toNat / 2 ^ 15 := by
  have hc := c.isLt
  rw [hi, extractLsb'_eq_ofNat_div, BitVec.toNat_ofNat, Nat.mod_eq_of_lt (by omega)]

theorem lo_toNat (c : Cell) : (lo c).toNat = c.toNat % 2 ^ 16 := BitVec.extractLsb'_toNat 0 16 c

theorem hiHalf_toNat (w : Word) : (hiHalf w).toNat = w.toNat / 2 ^ 16 := by
  have hw := w.isLt
  rw [hiHalf, extractLsb'_eq_ofNat_div, BitVec.toNat_ofNat, Nat.mod_eq_of_lt (by omega)]

theorem loHalf_toNat (w : Word) : (loHalf w).toNat = w.toNat % 2 ^ 16 := BitVec.extractLsb'_toNat 0 16 w

/-! Bit reorganization (R120). -/

theorem hi_append_lo_toNat (c d : Cell) :
    (hi c ++ lo d).toNat = c.toNat / 2 ^ 15 * 2 ^ 16 + d.toNat % 2 ^ 16 := by
  rw [toNat_append_eq_add, hi_toNat, lo_toNat]

theorem lo_append_hi_toNat (c d : Cell) :
    (lo c ++ hi d).toNat = c.toNat % 2 ^ 16 * 2 ^ 16 + d.toNat / 2 ^ 15 := by
  rw [toNat_append_eq_add, lo_toNat, hi_toNat]

/-- Settles O36, by the two ways BR joins halves. -/
theorem bitReorganizationTakesTheHalves : Obligations.BitReorganizationTakesTheHalves :=
  fun l => ⟨hi_append_lo_toNat l.s15 l.s14, lo_append_hi_toNat l.s11 l.s9, lo_append_hi_toNat l.s7 l.s5,
    lo_append_hi_toNat l.s2 l.s0⟩

/-! Substitution and mixing (R123-R125). -/

theorem sbox32_toNat (x : Word) : (sbox32 x).toNat =
    (s0 (BitVec.ofNat 8 (x.toNat / 2 ^ 24))).toNat * 2 ^ 24 + (s1 (BitVec.ofNat 8 (x.toNat / 2 ^ 16))).toNat * 2 ^ 16
      + (s0 (BitVec.ofNat 8 (x.toNat / 2 ^ 8))).toNat * 2 ^ 8 + (s1 (BitVec.ofNat 8 x.toNat)).toNat := by
  have hlow : x.toNat / 2 ^ 0 = x.toNat := Nat.div_one x.toNat
  simp only [sbox32, toNat_append_eq_add, extractLsb'_eq_ofNat_div, hlow]
  omega

/-- A left rotation by k brings bit i - k, counted modulo 32, to place i (R8). -/
theorem getLsbD_rotateLeft_mod (x : Word) {i k : Nat} (hi : i < 32) (hk : k < 32) :
    (x.rotateLeft k).getLsbD i = x.getLsbD ((i + 32 - k) % 32) := by
  rw [BitVec.getLsbD_rotateLeft, Nat.mod_eq_of_lt hk]
  by_cases hik : i < k
  · rw [decide_eq_true hik, cond_true, show (i + 32 - k) % 32 = 32 - k + i by omega]
  · rw [decide_eq_false hik, cond_false, decide_eq_true hi, Bool.true_and, show (i + 32 - k) % 32 = i - k by omega]

/-- The XOR of a word and four of its left rotations, bit by bit: L1 and L2 differ in the counts only. -/
theorem getLsbD_xor_rotations (x : Word) {i a b c d : Nat} (hi : i < 32)
    (ha : a < 32) (hb : b < 32) (hc : c < 32) (hd : d < 32) :
    (x ^^^ x.rotateLeft a ^^^ x.rotateLeft b ^^^ x.rotateLeft c ^^^ x.rotateLeft d).getLsbD i =
      (x.getLsbD ((i + 32 - 0) % 32) ^^ x.getLsbD ((i + 32 - a) % 32) ^^ x.getLsbD ((i + 32 - b) % 32) ^^
        x.getLsbD ((i + 32 - c) % 32) ^^ x.getLsbD ((i + 32 - d) % 32)) := by
  have hzero : (i + 32 - 0) % 32 = i := by omega
  simp only [BitVec.getLsbD_xor, getLsbD_rotateLeft_mod x hi, ha, hb, hc, hd, hzero, Bool.xor_assoc]

/-- Settles O38, by SBOX32's four bytes and one lemma for both mixings. -/
theorem substitutionAndMixingBitByBit : Obligations.SubstitutionAndMixingBitByBit := by
  refine ⟨sbox32_toNat, fun x i hi => ⟨?_, ?_⟩⟩
  · exact getLsbD_xor_rotations x hi (by decide) (by decide) (by decide) (by decide)
  · exact getLsbD_xor_rotations x hi (by decide) (by decide) (by decide) (by decide)

/-! The function F (R126, R127). -/

/-- A low half joined to a high half, as both memory words of F are before SBOX32. -/
theorem loHalf_append_hiHalf_toNat (v w : Word) :
    (loHalf v ++ hiHalf w).toNat = v.toNat % 2 ^ 16 * 2 ^ 16 + w.toNat / 2 ^ 16 := by
  rw [toNat_append_eq_add, loHalf_toNat, hiHalf_toNat]

/-- Settles O39: the two words are the joined halves of W1 and W2. -/
theorem nonlinearFunctionUpdatesBothWords : Obligations.NonlinearFunctionUpdatesBothWords := by
  intro c
  have hw1 : (c.r1 + x1 c.lfsr).toNat = (c.r1.toNat + (x1 c.lfsr).toNat) % 2 ^ 32 := BitVec.toNat_add _ _
  refine ⟨loHalf (c.r1 + x1 c.lfsr) ++ hiHalf (c.r2 ^^^ x2 c.lfsr),
    loHalf (c.r2 ^^^ x2 c.lfsr) ++ hiHalf (c.r1 + x1 c.lfsr), BitVec.toNat_add _ _, ?_, ?_, rfl⟩
  · rw [loHalf_append_hiHalf_toNat, hw1]
  · rw [loHalf_append_hiHalf_toNat, hw1]

/-- Settles O40, by running F on the three rows. -/
theorem nonlinearFunctionCorners : Obligations.NonlinearFunctionCorners := by
  unfold Obligations.NonlinearFunctionCorners
  decide

/-! The S-boxes (R121, R122). -/

/-- The layout of R121: the rows one after the other are the table in the order of x. -/
theorem getD_flatten_of_rows (rows : List (List Byte)) (hrows : ∀ r ∈ rows, r.length = 16) (n : Nat) :
    (rows.getD (n / 16) []).getD (n % 16) 0 = rows.flatten.getD n 0 := by
  induction rows generalizing n with
  | nil => rfl
  | cons r rows ih =>
    have hr : r.length = 16 := hrows r List.mem_cons_self
    rw [List.flatten_cons]
    by_cases hn : n < 16
    · rw [Nat.div_eq_of_lt hn, Nat.mod_eq_of_lt hn, List.getD_append _ _ _ _ (by omega), List.getD_cons_zero]
    · rw [List.getD_append_right _ _ _ _ (by omega), hr, ← ih fun r' h => hrows r' (List.mem_cons_of_mem r h),
        show n / 16 = (n - 16) / 16 + 1 by omega, List.getD_cons_succ, show (n - 16) % 16 = n % 16 by omega]

/-- The set of the bytes in a list, as a number with one bit for each byte. -/
def byteMask : List Byte → Nat
  | [] => 0
  | b :: bs => 2 ^ b.toNat ||| byteMask bs

theorem testBit_byteMask (bs : List Byte) (y : Byte) : (byteMask bs).testBit y.toNat = decide (y ∈ bs) := by
  induction bs with
  | nil => rw [byteMask, Nat.zero_testBit, decide_eq_false List.not_mem_nil]
  | cons b bs ih =>
    rw [byteMask, Nat.testBit_or, Nat.testBit_two_pow, ih]
    simp only [BitVec.toNat_inj, List.mem_cons, Bool.decide_or, eq_comm]

theorem mem_of_byteMask_full {bs : List Byte} (h : byteMask bs = 2 ^ 256 - 1) (y : Byte) : y ∈ bs := by
  have hbit := testBit_byteMask bs y
  rwa [h, Nat.testBit_two_pow_sub_one, decide_eq_true y.isLt, eq_comm, decide_eq_true_eq] at hbit

/-- A table of 256 entries that leaves no byte out is a permutation of the bytes. -/
theorem tableEntry_bijective (rows : List (List Byte)) (hrows : ∀ r ∈ rows, r.length = 16)
    (hlen : rows.flatten.length = 256) (hfull : byteMask rows.flatten = 2 ^ 256 - 1) :
    Function.Bijective (tableEntry rows) := by
  rw [← Finite.surjective_iff_bijective]
  intro y
  obtain ⟨n, hn, hy⟩ := List.getElem_of_mem (mem_of_byteMask_full hfull y)
  have hx : (BitVec.ofNat 8 n).toNat = n := Nat.mod_eq_of_lt (hn.trans_eq hlen)
  refine ⟨BitVec.ofNat 8 n, ?_⟩
  rw [tableEntry, getD_flatten_of_rows rows hrows, hx, List.getD_eq_getElem _ _ hn, hy]

/-- Settles O37: each table has sixteen rows of sixteen entries and leaves no byte out. -/
theorem sboxesArePermutations : Obligations.SboxesArePermutations :=
  ⟨tableEntry_bijective _ (by decide) (by decide +kernel) (by decide +kernel),
    tableEntry_bijective _ (by decide) (by decide +kernel) (by decide +kernel)⟩

end Sys2Proof.Machine
end

section
/-! The keystream (43_keystream.md): the rounds of INITIALIZE, the words of NEXTWORD and their count, and what NOP,
INIT, GEN and DESTROY leave (R140-R149). -/

namespace Sys2Proof.Machine

/-! INITIALIZE (R140). -/

/-- A W that is folded loses its lowest bit (R108). -/
theorem foldWord_toNat (w : Word) : (foldWord w).toNat = w.toNat / 2 := by
  have hw := w.isLt
  rw [foldWord, extractLsb'_eq_ofNat_div, BitVec.toNat_ofNat, Nat.mod_eq_of_lt (by omega), pow_one]

/-- Settles O41: the 33 states are those after 0 to 32 rounds, and each round is the initialization advance of O33. -/
theorem initializeIsThirtyTwoRoundsAndPriming : Obligations.InitializeIsThirtyTwoRoundsAndPriming := by
  intro z k iv
  refine ⟨fun n => initRounds z n (loadedCipher k iv), rfl, fun n _ => ?_, keyedCipher_parts z k iv⟩
  simp only [initRounds_succ]
  generalize initRounds z n (loadedCipher k iv) = c
  obtain ⟨hlast, hdown⟩ := (advancesShiftAndStore z c.lfsr (foldWord (outF c)) _).1 rfl
  rw [foldWord_toNat] at hlast
  exact ⟨rfl, rfl, hdown, hlast⟩

/-! NEXTWORD (R141). -/

theorem afterWords_ksidx_toNat (z : ZeroRep) (n : Nat) (c : Cipher) :
    (afterWords z n c).ksidx.toNat = (c.ksidx.toNat + n) % 2 ^ 64 := by
  rw [afterWords_ksidx, BitVec.toNat_add, BitVec.toNat_ofNat, Nat.add_mod_mod]

/-- Settles O43: F runs on the advanced register, and the counter is `afterWords_ksidx` as a number. -/
theorem everyWordAdvancesAndIsCounted : Obligations.EveryWordAdvancesAndIsCounted :=
  fun z c => ⟨⟨workAdvance z c, rfl, rfl, rfl, rfl, rfl, rfl, rfl⟩, fun n => afterWords_ksidx_toNat z n c⟩

/-! INIT (R145), and the length checks it shares with MACINIT. -/

section
variable {klen ivlen : Byte}

theorem startContext_of_klen_ne (s : State) (c : Ctx) (hk : klen.toNat ≠ 16) :
    s.startContext klen ivlen c = s.raiseErr .invalidKeyLength :=
  if_pos fun e => hk (congrArg BitVec.toNat e)

theorem startContext_of_ivlen_ne (s : State) (c : Ctx) (hk : klen.toNat = 16) (hiv : ivlen.toNat ≠ 16) :
    s.startContext klen ivlen c = s.raiseErr .invalidIvLength := by
  obtain rfl : klen = 16#8 := BitVec.eq_of_toNat_eq hk
  exact (if_neg (not_not.mpr rfl)).trans (if_pos fun e => hiv (congrArg BitVec.toNat e))

theorem startContext_of_lengths (s : State) (c : Ctx) (hk : klen.toNat = 16) (hiv : ivlen.toNat = 16) :
    s.startContext klen ivlen c = (s.freshContext c).complete .ok := by
  obtain rfl : klen = 16#8 := BitVec.eq_of_toNat_eq hk
  obtain rfl : ivlen = 16#8 := BitVec.eq_of_toNat_eq hiv
  rfl

end

theorem State.KsTracks.complete {s : State} {k iv : Quad} {drawn : Nat} (h : s.KsTracks k iv drawn) (e : Err) :
    (s.complete e).KsTracks k iv drawn :=
  ⟨h.ctx, h.cipher⟩

/-- Settles O45, by the three cases of the two length checks. -/
theorem initStartsAFreshKeystream : Obligations.InitStartsAFreshKeystream := by
  intro s klen ivlen
  simp only [exec, execInit_eq]
  refine ⟨fun hk => ?_, fun hk hiv => ?_, fun hk hiv => ?_⟩
  · rw [startContext_of_klen_ne s .ks hk]
    rfl
  · rw [startContext_of_ivlen_ne s .ks hk hiv]
    rfl
  · rw [startContext_of_lengths s .ks hk hiv]
    exact ⟨_, rfl, s.freshContext_ksTracks.complete .ok, keyedCipher_ksidx _ _ _, rfl⟩

/-! GEN (R143, R146, R148). -/

section
variable {s : State}

theorem exec_gen_of_ks {n : BitVec 28} (hctx : s.ctx = .ks) (hn : n.toNat ≤ s.cfg.capacityWords) :
    exec (.gen n) s = .next ((s.generate n.toNat).complete .ok) := by
  rcases execGen_eq n s with ⟨hne, _⟩ | ⟨_, hlt, _⟩ | ⟨_, _, e⟩
  · exact absurd hctx hne
  · exact absurd hn (Nat.not_le.mpr hlt)
  · exact e

theorem State.generate_wordsOut_toNat (s : State) (n : BitVec 28) : (s.generate n.toNat).wordsOut.toNat = n.toNat := by
  have hn := n.isLt
  rw [State.generate_wordsOut, BitVec.toNat_ofNat, Nat.mod_eq_of_lt (by omega)]

theorem State.generate_outbuf_length {n : Nat} (hn : n ≤ s.cfg.capacityWords) :
    (s.generate n).outbuf.length = s.cfg.capacityWords := by
  rw [State.generate_outbuf, List.length_append, words_length, List.length_replicate, Nat.add_sub_of_le hn]

theorem State.generate_outbuf_getD (s : State) (n j : Nat) :
    (s.generate n).outbuf.getD j 0 =
      if j < n then nextWord s.cfg.zeroRep (afterWords s.cfg.zeroRep j s.stream.cipher) else 0 := by
  have hlen := words_length s.cfg.zeroRep n s.stream.cipher
  rw [State.generate_outbuf]
  split
  · next hj => rw [List.getD_append _ _ _ _ (by omega), words_getD _ _ _ _ _ hj]
  · next hj => rw [List.getD_append_right _ _ _ _ (by omega), getD_replicate_zero]

/-- The next word of a context that has drawn `drawn` words is KS(drawn), the one after it KS(drawn + 1), … (R142). -/
theorem State.KsTracks.nextWord_afterWords {k iv : Quad} {drawn : Nat} (h : s.KsTracks k iv drawn) (j : Nat) :
    nextWord s.cfg.zeroRep (afterWords s.cfg.zeroRep j s.stream.cipher) =
      keystreamWord s.cfg.zeroRep k iv (drawn + j) := by
  rw [h.cipher, ← afterWords_add, keystreamWord]

/-- Settles O46, by what `State.generate` leaves in each field. -/
theorem genWritesTheNextWords : Obligations.GenWritesTheNextWords := by
  intro s n hctx hn
  refine ⟨_, exec_gen_of_ks hctx hn, rfl, s.generate_wordsOut_toNat n, State.generate_outbuf_length hn, rfl,
    afterWords_ksidx_toNat _ _ _, s.generate_outbuf_getD n.toNat, fun k iv drawn h => ?_⟩
  refine ⟨(h.generate _).complete .ok, fun j hj => ?_⟩
  rw [State.complete_outbuf, s.generate_outbuf_getD, if_pos hj, h.nextWord_afterWords]

/-- Settles O47, by the two ways GEN fails. -/
theorem failingGenDrawsNothing : Obligations.FailingGenDrawsNothing := by
  intro s n hfail
  rw [exec]
  rcases execGen_eq n s with ⟨hne, e⟩ | ⟨hctx, _, e⟩ | ⟨hctx, hn, _⟩
  · rw [e, if_neg hne]
    rfl
  · rw [e, if_pos hctx]
    rfl
  · exact absurd hfail (not_or.mpr ⟨not_not.mpr hctx, Nat.not_lt.mpr hn⟩)

theorem State.generate_outbuf_take (s : State) (n : Nat) :
    (s.generate n).outbuf.take n = words s.cfg.zeroRep n s.stream.cipher :=
  List.take_left' (words_length _ _ _)

/-- n + m words are n words and the m words that follow them (R143). -/
theorem State.generate_outbuf_add (s : State) (n m : Nat) :
    (s.generate (n + m)).outbuf = words s.cfg.zeroRep n s.stream.cipher ++
      (words s.cfg.zeroRep m (s.generate n).stream.cipher ++ List.replicate (s.cfg.capacityWords - (n + m)) 0) := by
  rw [State.generate_outbuf, words_add, List.append_assoc, State.generate_stream]

theorem State.generate_stream_add (s : State) (n m : Nat) :
    (s.generate (n + m)).stream = ((s.generate n).generate m).stream := by
  simp only [State.generate_stream, State.generate_cfg, afterWords_add]

/-- Settles O48: the words and the generator of n + m draws are those of n draws and m more. -/
theorem genTruncatesAndConcatenates : Obligations.GenTruncatesAndConcatenates := by
  intro s a b c m n mn hctx hsum hmn ha hb hc
  have hn : n.toNat ≤ s.cfg.capacityWords := by omega
  have hm : m.toNat ≤ s.cfg.capacityWords := by omega
  rw [exec_gen_of_ks hctx hn] at ha
  cases ha
  rw [exec_gen_of_ks (s := (s.generate n.toNat).complete .ok) hctx hm] at hb
  cases hb
  rw [exec_gen_of_ks hctx hmn] at hc
  cases hc
  rw [hsum]
  refine ⟨?_, ?_, s.generate_stream_add _ _⟩
  · rw [State.complete_outbuf, State.complete_outbuf, s.generate_outbuf_take, s.generate_outbuf_add,
      List.take_left' (words_length _ _ _)]
  · rw [State.complete_outbuf, State.complete_outbuf, State.generate_outbuf_take, s.generate_outbuf_add,
      List.drop_left' (words_length _ _ _), List.take_left' (words_length _ _ _)]
    rfl

end

/-! NOP and DESTROY (R144, R149). -/

theorem Quad.zero_word (n : Fin 4) : Quad.zero.word n = 0 := by
  fin_cases n <;> rfl

/-- Settles O49: both meanings are one update of the state, NOP's of STATUS and DESTROY's the wipe. -/
theorem nopAndDestroyComplete : Obligations.NopAndDestroyComplete := fun _ =>
  ⟨rfl, _, rfl, zero_cell, rfl, rfl, rfl, rfl, rfl, rfl, rfl, fun n => ⟨Quad.zero_word n, Quad.zero_word n⟩,
    getD_replicate_zero _, List.length_replicate, getD_replicate_zero _, List.length_replicate,
    rfl, rfl, rfl, rfl, rfl, rfl, rfl, rfl, rfl, rfl⟩

/-! The vectors of 95_test_vectors.md. -/

/-- V-INIT-1 after the 32 rounds. -/
def zeroKeyRounds : Cipher where
  lfsr := ⟨0x7CE15B8B#31, 0x747CA0C4#31, 0x6259DD0B#31, 0x47A94C2B#31, 0x3A89C82E#31, 0x32B433FC#31, 0x231EA13F#31,
    0x31711E42#31, 0x4CCCE955#31, 0x3FB6071E#31, 0x161D3512#31, 0x7114B136#31, 0x5154D452#31, 0x78C69A74#31,
    0x4F26BA6B#31, 0x3E1B8D6A#31⟩
  r1 := 0x14CFD44C#32
  r2 := 0x8C6DE800#32
  ksidx := 0

theorem initRounds_zeroKey : initRounds .zero 32 (loadedCipher Quad.zero Quad.zero) = zeroKeyRounds := by
  decide +kernel

/-- Settles O42, by running the rounds, and the priming step on what they leave. -/
theorem initializeVector : Obligations.InitializeVector := by
  unfold Obligations.InitializeVector
  rw [keyedCipher, initRounds_zeroKey]
  exact ⟨rfl, rfl, rfl, by decide +kernel, by decide +kernel⟩

/-- Settles O44, by running INITIALIZE and two words for each key and IV. -/
theorem keystreamVectors : Obligations.KeystreamVectors := by
  unfold Obligations.KeystreamVectors
  decide +kernel

end Sys2Proof.Machine
end

section
/-! Authentication (44_mac.md): the fresh context of MACINIT, what MACUPD adds, the tag of MACFINAL and its independence
of the chunks, ENSURE and WINDOW (R160-R167). -/

namespace Sys2Proof.Machine

section
variable {s : State} {k iv : Quad} {m : List Bool}

/-! Contexts that track a message. -/

theorem State.MacTracks.complete (h : s.MacTracks k iv m) (e : Err) : (s.complete e).MacTracks k iv m :=
  .of_acc h.ctx h.mlen h.acc

/-- Filling MSGBUF leaves the context (R164). -/
theorem State.MacTracks.setMsgbuf (h : s.MacTracks k iv m) (buf : List Word) :
    { s with msgbuf := buf }.MacTracks k iv m :=
  .of_acc h.ctx h.mlen h.acc

/-- The words drawn for a message of at most n bits do not go past the second word of the window at n (R161). -/
theorem State.MacTracks.window (h : s.MacTracks k iv m) {n : Nat} (hmn : m.length ≤ n) (hn : n < 2 ^ 64) :
    Machine.window s.cfg.zeroRep n s.stream = kwin s.cfg.zeroRep k iv n :=
  h.acc.stream.window hn (h.drawn.trans (by omega))

/-! MACUPD (R163, R166). -/

theorem exec_macupd_of_mac {n : BitVec 28} (hctx : s.ctx = .mac) (hn : n.toNat ≤ 32 * s.cfg.msgbufWords)
    (hlen : s.mlen.toNat + n.toNat < 2 ^ 64) :
    exec (.macupd n) s = .next ((s.update n.toNat).complete .ok) := by
  rcases execMacupd_eq n s with ⟨hne, _⟩ | ⟨_, hover | hover, _⟩ | ⟨_, _, _, e⟩
  · exact absurd hctx hne
  · exact absurd hn (Nat.not_le.mpr hover)
  · exact absurd hlen (Nat.not_lt.mpr hover)
  · exact e

/-- ACCUMULATE draws a word for set bits only (R163). -/
theorem accumulate_of_no_set_bit (z : ZeroRep) {buf : List Word} (pos : Nat) {n : Nat} (a : Acc)
    (hzero : ∀ i, i < n → msgBit buf i = false) : accumulate z buf pos n a = a := by
  induction n with
  | zero => rfl
  | succ n ih =>
    rw [accumulate_succ, ih fun i hi => hzero i (Nat.lt_succ_of_lt hi), absorb, hzero n n.lt_succ_self]
    rfl

theorem State.update_of_no_set_bit {n : Nat} (hzero : ∀ i, i < n → msgBit s.msgbuf i = false) :
    (s.update n).stream = s.stream ∧ (s.update n).t = s.t := by
  rw [State.update_stream, State.update_t, accumulate_of_no_set_bit _ _ _ hzero]
  exact ⟨rfl, rfl⟩

/-! MACFINAL (R160, R167). -/

theorem exec_macfinal_of_mac (hctx : s.ctx = .mac) : exec .macfinal s = .next (s.finalize.complete .ok) := by
  rcases execMacfinal_eq s with ⟨hne, _⟩ | ⟨_, e⟩
  · exact absurd hctx hne
  · exact e

theorem State.MacTracks.finalStream_ksidx (h : s.MacTracks k iv m) :
    s.finalStream.cipher.ksidx.toNat = (m.length + 31) / 32 + 2 := by
  have hdrawn := h.drawn
  rw [← h.mlen] at hdrawn ⊢
  exact Machine.finalStream_ksidx s hdrawn

/-- WINDOW(L) and the last ENSURE of MACFINAL keep the generator that of (k, iv) (R167). -/
theorem State.MacTracks.finalStream_holds (h : s.MacTracks k iv m) : s.finalStream.Holds s.cfg.zeroRep k iv := by
  have hm := s.mlen.isLt
  exact (h.acc.stream.ensure (s.mlen.toNat / 32 + 1) (by omega)).ensure _ (by rw [lastWordIndex]; omega)

/-- The last word of the tag is the newest one drawn (R160). -/
theorem State.MacTracks.lastWord (h : s.MacTracks k iv m) :
    kw s.finalStream (lastWordIndex m.length) = keystreamWord s.cfg.zeroRep k iv (lastWordIndex m.length) := by
  have hksidx := h.finalStream_ksidx
  exact h.finalStream_holds.kw (by rw [lastWordIndex]; omega) (by rw [lastWordIndex]; omega)

theorem State.MacTracks.finalTag (h : s.MacTracks k iv m) : s.finalTag = tagFn s.cfg.zeroRep k iv m := by
  have hlen : m.length < 2 ^ 64 := h.mlen ▸ s.mlen.isLt
  rw [State.finalTag, h.mlen, h.t, h.window le_rfl hlen, h.lastWord]
  rfl

/-! Chunk invariance (R164). -/

theorem messageOf_cons_length (c : Chunk) (cs : List Chunk) :
    (messageOf (c :: cs)).length = c.n.toNat + (messageOf cs).length := by
  simp [messageOf]

/-- Chunks within the bounds are all taken, and join the message bit by bit. -/
theorem State.MacTracks.feedChunks {cs : List Chunk} (h : s.MacTracks k iv m)
    (hfit : ∀ c ∈ cs, c.n.toNat ≤ 32 * s.cfg.msgbufWords) (hlen : m.length + (messageOf cs).length < 2 ^ 64) :
    ∃ t : State, Machine.feedChunks cs s = some t ∧ t.cfg = s.cfg ∧ t.MacTracks k iv (m ++ messageOf cs) := by
  induction cs generalizing s m with
  | nil => exact ⟨s, rfl, rfl, by rw [messageOf, List.flatMap_nil, List.append_nil]; exact h⟩
  | cons c cs ih =>
    rw [messageOf_cons_length] at hlen
    have hfilled := h.setMsgbuf c.buf
    have hbound : s.mlen.toNat + c.n.toNat < 2 ^ 64 := by rw [h.mlen]; omega
    obtain ⟨t, hfeed, hcfg, ht⟩ := ih ((hfilled.update hbound).complete .ok)
      (fun c' hc' => hfit c' (List.mem_cons_of_mem c hc'))
      (by rw [List.length_append, chunkBits_length]; omega)
    refine ⟨t, ?_, hcfg, ?_⟩
    · rw [Machine.feedChunks, exec_macupd_of_mac hfilled.ctx (hfit c List.mem_cons_self) hbound]
      exact hfeed
    · rw [List.append_assoc] at ht
      exact ht

end

/-! The statements. -/

/-- Settles O51, by the three cases of the two length checks. -/
theorem macinitStartsAFreshMessage : Obligations.MacinitStartsAFreshMessage := fun s _ _ =>
  ⟨fun hk => congrArg Host.Outcome.next (startContext_of_klen_ne s .mac hk),
    fun hk hiv => congrArg Host.Outcome.next (startContext_of_ivlen_ne s .mac hk hiv),
    fun hk hiv => ⟨_, congrArg Host.Outcome.next (startContext_of_lengths s .mac hk hiv),
      s.freshContext_macTracks.complete .ok, keyedCipher_ksidx _ _ _, rfl⟩⟩

/-- Settles O52, by what `State.update` leaves: the induction over the bits is `Acc.Tracks.accumulate`. -/
theorem macupdAddsItsBits : Obligations.MacupdAddsItsBits := by
  intro s n hctx hn hlen
  exact ⟨_, exec_macupd_of_mac hctx hn hlen, rfl, s.update_mlen_toNat hlen, State.update_of_no_set_bit,
    fun _ _ _ h => (h.update hlen).complete .ok⟩

/-- Settles O53: the tag and the counter are those of the message a genuine context tracks. -/
theorem macfinalWritesTheTag : Obligations.MacfinalWritesTheTag := fun _ hctx =>
  ⟨_, exec_macfinal_of_mac hctx, rfl, fun _ _ _ h => ⟨h.finalTag, h.finalStream_ksidx⟩⟩

/-- Settles O54: whatever the chunks, the context tracks the joined message when MACFINAL runs. -/
theorem chunksDoNotShowInTheTag : Obligations.ChunksDoNotShowInTheTag := by
  intro s s1 cs hinit hfit hlen
  cases hinit
  have hfresh := s.freshContext_macTracks.complete .ok
  obtain ⟨s2, hfeed, hcfg, h⟩ := hfresh.feedChunks hfit (by rw [List.length_nil, Nat.zero_add]; exact hlen)
  have hz : s2.cfg.zeroRep = s.cfg.zeroRep := congrArg Config.zeroRep hcfg
  rw [List.nil_append] at h
  exact ⟨s2, _, hfeed, hz ▸ h.t, exec_macfinal_of_mac h.ctx, rfl, hz ▸ h.finalTag, h.mlen⟩

/-- Settles O56, by `ensure_unfold` and by how far a genuine context may have drawn. -/
theorem windowReadsTheKeystream : Obligations.WindowReadsTheKeystream := fun z st =>
  ⟨fun j hj => ensure_unfold z j st hj, fun _ _ _ _ _ h hmn hn => h.window hmn hn⟩

/-- Settles O55, by running INITIALIZE and the words of each tag. -/
theorem tagVectors : Obligations.TagVectors := by
  unfold Obligations.TagVectors
  decide +kernel

end Sys2Proof.Machine
end

section
/-! The two transactions by the register their offset names: what a read returns (R183), what a write leaves (R184,
R185, R246). -/

namespace Sys2Proof.Machine

/-! Which register a transaction reaches, under legal parameters. -/

/-- R51 with the checks of R181: the offset of a register is aligned, so the width is left. -/
theorem target_eq_some_iff_inMap {cfg : Config} (hok : cfg.ok = true) (off : Offset) (size : Nat) (r : Reg) :
    target cfg off size = some r ↔ size = 4 ∧ r.inMap cfg = true ∧ r.offset = off.toNat := by
  rw [target_eq_some]
  constructor
  · rintro ⟨hsize, hal, hreg⟩
    exact ⟨hsize, (registerMapExact cfg off r hok hal).mp hreg⟩
  · rintro ⟨hsize, hmap, hoff⟩
    have hal : off.toNat % 4 = 0 := hoff ▸ r.offset_mod
    exact ⟨hsize, hal, (registerMapExact cfg off r hok hal).mpr ⟨hmap, hoff⟩⟩

/-- The bus errors are the width, the alignment (R181) and the reserved offsets (R182). -/
theorem target_eq_none_iff_inMap {cfg : Config} (hok : cfg.ok = true) (off : Offset) (size : Nat) :
    target cfg off size = none ↔
      size ≠ 4 ∨ off.toNat % 4 ≠ 0 ∨ ∀ r : Reg, r.inMap cfg = true → r.offset ≠ off.toNat := by
  rw [Option.eq_none_iff_forall_ne_some]
  simp only [ne_eq, target_eq_some_iff_inMap hok]
  constructor
  · intro h
    by_cases hsize : size = 4
    · exact .inr (.inr fun r hmap hoff => h r ⟨hsize, hmap, hoff⟩)
    · exact .inl hsize
  · rintro h r ⟨hsize, hmap, hoff⟩
    rcases h with h | h | h
    · exact h hsize
    · exact h (hoff ▸ r.offset_mod)
    · exact h r hmap hoff

/-! The number a register reads as (R183). -/

theorem count_lowWord_toNat (c : Count) : (c.extractLsb' 0 32).toNat = c.toNat % 2 ^ 32 :=
  BitVec.extractLsb'_toNat 0 32 c

theorem count_highWord_toNat (c : Count) : (c.extractLsb' 32 32).toNat = c.toNat / 2 ^ 32 := by
  have hc := c.isLt
  rw [extractLsb'_eq_ofNat_div, BitVec.toNat_ofNat, Nat.mod_eq_of_lt (by omega)]

theorem regValue_outbuf_toNat (s : State) (j : Nat) :
    (s.regValue (.outbuf j)).toNat = if j < s.wordsOut.toNat then (s.outbuf.getD j 0).toNat else 0 := by
  rw [State.regValue, apply_ite BitVec.toNat]
  rfl

theorem regValue_status_toNat (s : State) :
    (s.regValue .status).toNat = s.err.code.toNat * 2 ^ 8 + s.ctx.code.toNat * 2 ^ 4 + (if s.ovr then 2 else 0)
      + (if s.pending = none then 0 else 1) := by
  rw [State.regValue, status_toNat, State.busy]
  cases s.pending <;> rfl

/-- CAP and MBCAP show the parameters, which a word holds because they are at most 4096 and 64 (R6). -/
theorem regValue_parameters_toNat {s : State} (hok : s.cfg.ok = true) :
    (s.regValue .cap).toNat = s.cfg.capacityWords ∧ (s.regValue .mbcap).toNat = s.cfg.msgbufWords := by
  obtain ⟨_, hcap, _, hmsg, _⟩ := (config_ok_iff s.cfg).mp hok
  exact ⟨(BitVec.toNat_ofNat _ _).trans (Nat.mod_eq_of_lt (by omega)),
    (BitVec.toNat_ofNat _ _).trans (Nat.mod_eq_of_lt (by omega))⟩

/-! Reads. -/

theorem readReply_of_none {s : State} {off : Offset} {size : Nat} (h : target s.cfg off size = none) :
    s.readReply off size = .read 0 .error := by
  rw [State.readReply, h]

/-- A read that reaches a register is OKAY; while BUSY = 1 only ID and STATUS show their value (R245). -/
theorem readReply_of_some {s : State} {off : Offset} {size : Nat} {r : Reg} (h : target s.cfg off size = some r) :
    s.readReply off size = .read (if s.busy && !r.readableBusy then 0 else s.regValue r) .okay := by
  rw [State.readReply, h, apply_ite (Reply.read · Resp.okay)]

theorem hiddenWhileBusy_iff (s : State) (r : Reg) :
    (s.busy && !r.readableBusy) = true ↔ s.busy = true ∧ r ≠ .id ∧ r ≠ .status := by
  simp [Reg.readableBusy]

/-- Settles O7, by whether the offset names a register; its value is a number by the kind of register. -/
theorem readAnswersAsTheMapSays : Obligations.ReadAnswersAsTheMapSays := by
  intro s off size hok
  cases htarget : target s.cfg off size with
  | none =>
    refine ⟨0, .error, congrArg (Host.Outcome.next <| s.answer ·) (readReply_of_none htarget),
      fun _ => ⟨rfl, rfl⟩, fun _ => ⟨rfl, rfl⟩, fun r hsize hmap hoff => ?_⟩
    cases htarget.symm.trans ((target_eq_some_iff_inMap hok off size r).mpr ⟨hsize, hmap, hoff⟩)
  | some r =>
    obtain ⟨hsize, hmap, hoff⟩ := (target_eq_some_iff_inMap hok off size r).mp htarget
    refine ⟨_, .okay, congrArg (Host.Outcome.next <| s.answer ·) (readReply_of_some htarget),
      fun h => ?_, fun h => absurd hoff (h r hmap), fun r' hsize' hmap' hoff' => ⟨rfl, ?_⟩⟩
    · exact (h.elim (· hsize) (· (hoff ▸ r.offset_mod))).elim
    · cases htarget.symm.trans ((target_eq_some_iff_inMap hok off size r').mpr ⟨hsize', hmap', hoff'⟩)
      refine ⟨fun hbusy hid hstatus => if_pos ((hiddenWhileBusy_iff s r).mpr ⟨hbusy, hid, hstatus⟩),
        fun hshown => ?_⟩
      have hvalue : ¬(s.busy && !r.readableBusy) = true := by
        rw [hiddenWhileBusy_iff]
        rintro ⟨hbusy, hid, hstatus⟩
        rcases hshown with h | h | h
        · cases hbusy.symm.trans h
        · exact hid h
        · exact hstatus h
      rw [if_neg hvalue]
      cases r with
      | id | wordsOut | tag | cmd | key | iv | msgbuf => rfl
      | status => exact regValue_status_toNat s
      | cap => exact (regValue_parameters_toNat hok).1
      | mbcap => exact (regValue_parameters_toNat hok).2
      | ksidxLo | mlenLo => exact count_lowWord_toNat _
      | ksidxHi | mlenHi => exact count_highWord_toNat _
      | outbuf j => exact regValue_outbuf_toNat s j

/-! Writes. -/

theorem exec_wr_error {s : State} {off : Offset} {size : Nat} (hr : target s.cfg off size = none) (v : Word) :
    exec (.wr off size v) s = .next (s.answer (.wrote .error)) := by
  rw [exec, execWr, hr]

/-- A write that finds a command in flight is lost, and OVR says so (R246). -/
theorem exec_wr_busy {s : State} {off : Offset} {size : Nat} {r : Reg} (hp : s.pending ≠ none)
    (hr : target s.cfg off size = some r) (v : Word) :
    exec (.wr off size v) s = .next ({ s with ovr := true }.answer (.wrote .okay)) := by
  have hbusy : s.busy = true := by rwa [← Bool.not_eq_false, busy_eq_false_iff]
  rw [exec, execWr, hr, hbusy]
  rfl

theorem writeReg_replies (s : State) (r : Reg) (v : Word) : (s.writeReg r v).replies = s.replies := by
  rcases writeReg_eq s r v with ⟨_, e⟩ | ⟨_, _, e⟩ | ⟨_, _, e⟩ | ⟨_, _, e⟩ | e <;> rw [e]
  exact s.accept_replies v

/-- Only CMD and the staging registers hold what is written to them (R185). -/
theorem writeReg_ignored (s : State) {r : Reg} (v : Word) (hcmd : r ≠ .cmd) (hkey : ∀ n, r ≠ .key n)
    (hiv : ∀ n, r ≠ .iv n) (hmsg : ∀ m, r ≠ .msgbuf m) : s.writeReg r v = s := by
  rcases writeReg_eq s r v with ⟨h, _⟩ | ⟨n, h, _⟩ | ⟨n, h, _⟩ | ⟨m, h, _⟩ | e
  · exact absurd h hcmd
  · exact absurd h (hkey n)
  · exact absurd h (hiv n)
  · exact absurd h (hmsg m)
  · exact e

/-- A write to one word of a buffer, read back. -/
theorem getD_set_of_lt {buf : List Word} {j : Nat} (hj : j < buf.length) (m : Nat) (v : Word) :
    (buf.set m v).getD j 0 = if j = m then v else buf.getD j 0 := by
  simp only [List.getD_eq_getElem?_getD, List.getElem?_set, eq_comm (a := m)]
  by_cases h : j = m
  · subst h; simp [hj]
  · simp [h]

/-- Settles O8, by whether the offset names a register and whether a command is in flight; the register's kind says
what is stored. -/
theorem writeReachesOnlyItsRegister : Obligations.WriteReachesOnlyItsRegister := by
  intro s off size v hok
  refine ⟨fun h => exec_wr_error ((target_eq_none_iff_inMap hok off size).mpr h) v, fun r hsize hmap hoff => ?_⟩
  have htarget := (target_eq_some_iff_inMap hok off size r).mpr ⟨hsize, hmap, hoff⟩
  refine ⟨fun hp => exec_wr_busy hp htarget v, fun hp => ⟨s.writeReg r v, ?_, ?_, ?_, ?_, ?_, writeReg_ignored s v⟩⟩
  · rw [exec_wr_idle hp htarget, State.answer, writeReg_replies]
  · rintro rfl
    exact ⟨_, rfl⟩
  · rintro n rfl
    exact ⟨_, rfl, fun m => s.key.word_write n m v⟩
  · rintro n rfl
    exact ⟨_, rfl, fun m => s.iv.word_write n m v⟩
  · rintro m rfl
    exact ⟨_, rfl, List.length_set, fun j hj => getD_set_of_lt hj m v⟩

end Sys2Proof.Machine
end

section
/-! How a command ends, as a function of the six checks of R204: the first that fails chooses the error and the failing
state (R203, R148), and none leaves the effect (R205); with it that no step stops, and that code 5 is never raised. -/

namespace Sys2Proof.Machine

/-! The six checks. -/

theorem find?_failing_cons (failing : Bool) (e : Err) (checks : List (Bool × Err)) :
    (((failing, e) :: checks).find? (·.1)).map (·.2) =
      if failing then some e else (checks.find? (·.1)).map (·.2) := by
  cases failing <;> rfl

/-- The list of R204, read in its order. -/
theorem firstError_eq (i : Instr) (s : State) :
    firstError i s =
      if isIllegal i then some .illegalCommand
      else if !legalIn i s.ctx then some .uninitializedContext
      else if keyLength i != 16 then some .invalidKeyLength
      else if ivLength i != 16 then some .invalidIvLength
      else if overCount s i then some .capacityExceeded
      else if overLength s i then some .capacityExceeded
      else none := by
  simp only [firstError, checksOf, find?_failing_cons]
  rfl

theorem firstError_init (klen ivlen : Byte) (s : State) :
    firstError (.init klen ivlen) s =
      if klen ≠ 16#8 then some .invalidKeyLength
      else if ivlen ≠ 16#8 then some .invalidIvLength
      else none := by
  rw [firstError_eq]
  simp [isIllegal, legalIn, keyLength, ivLength, overCount, overLength, ← BitVec.toNat_inj]

theorem firstError_macinit (klen ivlen : Byte) (s : State) :
    firstError (.macinit klen ivlen) s = firstError (.init klen ivlen) s := rfl

theorem firstError_gen (n : BitVec 28) (s : State) :
    firstError (.gen n) s =
      if s.ctx ≠ .ks then some .uninitializedContext
      else if s.cfg.capacityWords < n.toNat then some .capacityExceeded
      else none := by
  rw [firstError_eq]
  simp [isIllegal, legalIn, keyLength, ivLength, overCount, overLength]

theorem firstError_macupd (n : BitVec 28) (s : State) :
    firstError (.macupd n) s =
      if s.ctx ≠ .mac then some .uninitializedContext
      else if 32 * s.cfg.msgbufWords < n.toNat ∨ 2 ^ 64 ≤ s.mlen.toNat + n.toNat then some .capacityExceeded
      else none := by
  rw [firstError_eq]
  simp [isIllegal, legalIn, keyLength, ivLength, overCount, overLength, ite_or]

theorem firstError_macfinal (s : State) :
    firstError .macfinal s = if s.ctx ≠ .mac then some .uninitializedContext else none := by
  rw [firstError_eq]
  simp [isIllegal, legalIn, keyLength, ivLength, overCount, overLength]

/-- OK is no check's code. -/
theorem firstError_ne_ok (i : Instr) (s : State) : firstError i s ≠ some .ok := by
  rw [firstError_eq]
  split_ifs <;> nofun

theorem legalIn_of_isIllegal {i : Instr} (h : isIllegal i = true) (c : Ctx) : legalIn i c = true := by
  cases i with
  | illegal => rfl
  | _ => cases h

/-- UninitializedContext is the code of check 2 alone, and an illegal word passes that check. -/
theorem firstError_eq_uninitializedContext_iff (i : Instr) (s : State) :
    firstError i s = some .uninitializedContext ↔ legalIn i s.ctx = false := by
  rw [firstError_eq]
  by_cases hill : isIllegal i = true
  · simp [hill, legalIn_of_isIllegal hill]
  · by_cases hlegal : legalIn i s.ctx = true
    · rw [if_neg hill, if_neg (by simp [hlegal]), hlegal]
      split_ifs <;> simp
    · simp [hill, hlegal]

/-! The two ways a command ends. -/

/-- What a success of the command leaves, but for STATUS (R144-R149, R163-R167). -/
def State.effect (s : State) : Instr → State
  | .init _ _ => s.freshContext .ks
  | .gen n => s.generate n.toNat
  | .destroy => s.wipe
  | .macinit _ _ => s.freshContext .mac
  | .macupd n => s.update n.toNat
  | .macfinal => s.finalize
  | .nop | .illegal _ | .rd _ _ | .wr _ _ _ => s

/-- What a failure of the command leaves (R203), GEN's being the one that clears its output (R148). -/
def State.failed (s : State) (e : Err) : Instr → State
  | .gen _ => s.raiseGen e
  | .nop | .init _ _ | .destroy | .macinit _ _ | .macupd _ | .macfinal | .illegal _ | .rd _ _ | .wr _ _ _ =>
    s.raiseErr e

/-- What the command leaves, given what its checks report. -/
def State.ended (s : State) (i : Instr) : Option Err → State
  | none => (s.effect i).complete .ok
  | some e => s.failed e i

/-- The arrows of R205. -/
@[simp] theorem State.effect_ctx (s : State) (i : Instr) : (s.effect i).ctx = ctxAfter i s.ctx := by
  cases i <;> rfl

@[simp] theorem State.failed_ctx (s : State) (e : Err) (i : Instr) : (s.failed e i).ctx = s.ctx := by
  cases i <;> rfl

@[simp] theorem State.failed_err (s : State) (e : Err) (i : Instr) : (s.failed e i).err = e := by
  cases i <;> rfl

@[simp] theorem State.failed_pending (s : State) (e : Err) (i : Instr) : (s.failed e i).pending = none := by
  cases i <;> rfl

theorem State.failed_of_ne_gen (s : State) (e : Err) {i : Instr} (h : ∀ n, i ≠ .gen n) :
    s.failed e i = s.raiseErr e := by
  cases i with
  | gen n => exact absurd rfl (h n)
  | _ => rfl

@[simp] theorem State.ended_err (s : State) (i : Instr) (r : Option Err) : (s.ended i r).err = r.getD .ok := by
  cases r with
  | none => rfl
  | some e => exact s.failed_err e i

@[simp] theorem State.ended_pending (s : State) (i : Instr) (r : Option Err) : (s.ended i r).pending = none := by
  cases r with
  | none => rfl
  | some e => exact s.failed_pending e i

/-- The meaning of every command is its checks, then its effect or its failure (R203, R204). -/
theorem exec_command_eq {i : Instr} (hi : isCommand i = true) (s : State) :
    exec i s = .next (s.ended i (firstError i s)) := by
  cases i with
  | nop => rfl
  | init klen ivlen =>
    rw [exec, execInit_eq, firstError_init]
    rcases startContext_eq s klen ivlen .ks with ⟨hk, e⟩ | ⟨hk, hiv, e⟩ | ⟨rfl, rfl, e⟩ <;> rw [e]
    · rw [if_pos hk]; rfl
    · rw [if_neg (not_not.mpr hk), if_pos hiv]; rfl
    · rfl
  | gen n =>
    rw [exec, firstError_gen]
    rcases execGen_eq n s with ⟨hne, e⟩ | ⟨hctx, hn, e⟩ | ⟨hctx, hn, e⟩ <;> rw [e]
    · rw [if_pos hne]; rfl
    · rw [if_neg (not_not.mpr hctx), if_pos hn]; rfl
    · rw [if_neg (not_not.mpr hctx), if_neg (Nat.not_lt.mpr hn)]; rfl
  | destroy => rfl
  | macinit klen ivlen =>
    rw [exec, execMacinit_eq, firstError_macinit, firstError_init]
    rcases startContext_eq s klen ivlen .mac with ⟨hk, e⟩ | ⟨hk, hiv, e⟩ | ⟨rfl, rfl, e⟩ <;> rw [e]
    · rw [if_pos hk]; rfl
    · rw [if_neg (not_not.mpr hk), if_pos hiv]; rfl
    · rfl
  | macupd n =>
    rw [exec, firstError_macupd]
    rcases execMacupd_eq n s with ⟨hne, e⟩ | ⟨hctx, hover, e⟩ | ⟨hctx, hn, hlen, e⟩ <;> rw [e]
    · rw [if_pos hne]; rfl
    · rw [if_neg (not_not.mpr hctx), if_pos hover]; rfl
    · rw [if_neg (not_not.mpr hctx), if_neg (not_or.mpr ⟨Nat.not_lt.mpr hn, Nat.not_le.mpr hlen⟩)]; rfl
  | macfinal =>
    rw [exec, firstError_macfinal]
    rcases execMacfinal_eq s with ⟨hne, e⟩ | ⟨hctx, e⟩ <;> rw [e]
    · rw [if_pos hne]; rfl
    · rw [if_neg (not_not.mpr hctx)]; rfl
  | illegal w => rfl
  | rd off size => cases hi
  | wr off size data => cases hi

/-- Settles O26: the state a command ends in holds what its checks report. -/
theorem firstFailingCheckIsReported : Obligations.FirstFailingCheckIsReported := fun i s hi =>
  ⟨_, exec_command_eq hi s, s.ended_pending i _, s.ended_err i _⟩

/-- Settles O27: the failing state is `State.failed`, which only GEN's output clears beyond STATUS. -/
theorem failureIsAtomic : Obligations.FailureIsAtomic := by
  intro i s e hi herr
  have hexec : exec i s = .next (s.failed e i) := by rw [exec_command_eq hi, herr]; rfl
  constructor
  · intro hgen
    rw [hexec, s.failed_of_ne_gen e hgen]
    rfl
  · rintro n rfl
    exact hexec

/-- Settles O28: check 2 is the table of R205, an effect moves CTX along its arrow, and a failure leaves it. -/
theorem lifecycleFollowsTheTable : Obligations.LifecycleFollowsTheTable := by
  intro i s hi
  refine ⟨_, exec_command_eq hi s, ?_⟩
  rw [← firstError_eq_uninitializedContext_iff, State.ended_err]
  cases herr : firstError i s with
  | none => exact ⟨by simp, fun _ => s.effect_ctx i, fun hne => absurd rfl hne⟩
  | some e =>
    have hne : e ≠ .ok := fun he => firstError_ne_ok i s (he ▸ herr)
    exact ⟨by simp, fun he => absurd he hne, fun _ => s.failed_ctx e i⟩

/-! Every step. -/

/-- Settles O15: the instruction a step runs answers a next state, and the steps that run none do. -/
theorem everyStepAnswersNext : Obligations.EveryStepAnswersNext := by
  intro s
  rcases step_cases s with ⟨w, _, hs⟩ | ⟨_, ⟨_, hs⟩ | ⟨x, rest, _, hs⟩ | ⟨rest, _, hs⟩⟩ <;> rw [hs]
  · exact exec_next _ _
  · exact ⟨_, rfl⟩
  · exact exec_next _ _
  · exact ⟨_, rfl⟩

/-- A transaction leaves STATUS.ERR, but for the write to CMD that is accepted, which clears it (R243). -/
theorem exec_txn_err {x : BusTxn} {s t : State} (h : exec (decodeTxn x) s = .next t) :
    t.err = s.err ∨ t.err = .ok := by
  rcases exec_txn_eq x s t h with ⟨_, rfl⟩ | ⟨_, _, v, r, _, _, ⟨_, rfl⟩ | ⟨_, rfl⟩⟩
  · exact .inl rfl
  · exact .inl rfl
  · rcases writeReg_eq s r v with ⟨_, e⟩ | ⟨_, _, e⟩ | ⟨_, _, e⟩ | ⟨_, _, e⟩ | e <;> rw [e]
    · exact .inr rfl
    all_goals exact .inl rfl

/-- Settles O22, by the four things a step can be: a command's code is one of R204's, and nothing else sets one but to
OK. -/
theorem allocationFailureNeverRaised : Obligations.AllocationFailureNeverRaised := by
  intro s t h herr
  rcases step_cases s with ⟨w, _, hs⟩ | ⟨_, ⟨_, hs⟩ | ⟨x, rest, _, hs⟩ | ⟨rest, _, hs⟩⟩ <;> rw [hs] at h
  · obtain ⟨_, _, _, _, _, _, hne⟩ := exec_cmd_frame w s t h
    exact absurd herr hne
  · cases h
    exact herr
  · rcases exec_txn_err h with e | e
    · exact e.symm.trans herr
    · cases e.symm.trans herr
  · cases h
    cases herr

end Sys2Proof.Machine
end

section
/-! A command in flight: what a step and a run leave while its LAT passes (R244, R245, R246), what the reset input
leaves (R240), and from these that results wait for the completion, which depends on nothing that happens meanwhile. -/

namespace Sys2Proof.Machine

/-! While LAT passes. -/

section
variable {s t u : State} {w : Word} {left passed : Nat}

/-- `t` is `s` with `passed` events gone from the port and `left` units of LAT left to the command `w`: nothing else
but OVR, which may have risen, and the replies has changed (R246). -/
def State.FrozenTo (s t : State) (w : Word) (left passed : Nat) : Prop :=
  t = { s with pending := some ⟨w, left⟩, port := s.port.drop passed, ovr := t.ovr, replies := t.replies } ∧
    (s.ovr = true → t.ovr = true)

theorem State.FrozenTo.refl (hp : s.pending = some ⟨w, left⟩) : s.FrozenTo s w left 0 :=
  ⟨by rw [← hp]; rfl, id⟩

theorem State.FrozenTo.pending (h : s.FrozenTo t w left passed) : t.pending = some ⟨w, left⟩ := by
  rw [h.1]

theorem State.FrozenTo.port (h : s.FrozenTo t w left passed) : t.port = s.port.drop passed := by
  rw [h.1]

theorem State.FrozenTo.trans {left' passed' : Nat} (h : s.FrozenTo t w left passed)
    (h' : t.FrozenTo u w left' passed') : s.FrozenTo u w left' (passed + passed') := by
  obtain ⟨ht, hovr⟩ := h
  obtain ⟨hu, hovr'⟩ := h'
  exact ⟨hu.trans (by rw [← List.drop_drop, ht]), fun hset => hovr' (hovr hset)⟩

/-- A transaction that finds a command in flight changes nothing but OVR and the replies (R245, R246). -/
theorem exec_txn_busy {x : BusTxn} (hbusy : s.busy = true) (h : exec (decodeTxn x) s = .next t) :
    t = { s with ovr := t.ovr, replies := t.replies } ∧ (s.ovr = true → t.ovr = true) := by
  rcases exec_txn_eq x s t h with ⟨_, rfl⟩ | ⟨_, _, _, _, _, _, ⟨_, rfl⟩ | ⟨hidle, _⟩⟩
  · exact ⟨rfl, id⟩
  · exact ⟨rfl, fun _ => rfl⟩
  · cases hbusy.symm.trans hidle

/-- One unit of LAT: at most one event of the port, which is not the reset input. -/
theorem step_frozenTo (hp : s.pending = some ⟨w, left + 1⟩) (hr : .rst ∉ s.port.take 1) :
    ∃ t, step s = .next t ∧ s.FrozenTo t w left 1 := by
  have hne : ∀ w', s.pending ≠ some ⟨w', 0⟩ := by simp [hp]
  rcases hq : s.port with _ | ⟨_ | _, rest⟩
  case nil =>
    refine ⟨_, step_idle hne hq, ?_, id⟩
    rw [State.took_of_succ hp, hq]
    rfl
  case cons.txn x =>
    obtain ⟨t, ht⟩ := exec_next (decodeTxn x) (s.took rest)
    have hbusy : (s.took rest).busy = true := (s.took_busy rest).trans (by simp [State.busy, hp])
    obtain ⟨hfrozen, hovr⟩ := exec_txn_busy hbusy ht
    refine ⟨t, (step_txn hne hq).trans ht, ?_, hovr⟩
    rw [hq]
    conv_lhs => rw [hfrozen, State.took_of_succ hp]
    rfl
  case cons.rst => simp [hq] at hr

/-- The whole LAT, by induction over the units that are left. -/
theorem run_frozenTo {n : Nat} (hp : s.pending = some ⟨w, n⟩) (hr : .rst ∉ s.port.take n) :
    ∃ t : State, core.run n s = .next t ∧ s.FrozenTo t w 0 n := by
  induction n generalizing s with
  | zero => exact ⟨s, rfl, .refl hp⟩
  | succ n ih =>
    rw [Nat.add_comm, List.take_add, List.mem_append, not_or] at hr
    obtain ⟨hr1, hrn⟩ := hr
    obtain ⟨a, hstep, ha⟩ := step_frozenTo hp hr1
    obtain ⟨t, hrun, ht⟩ := ih ha.pending (ha.port ▸ hrn)
    exact ⟨t, (core_run_succ n hstep).trans hrun, Nat.add_comm 1 n ▸ ha.trans ht⟩

/-- With nothing at the port a command runs, after its LAT, on the state it was accepted in (R244). -/
theorem run_of_quiet_port {n : Nat} (hp : s.pending = some ⟨w, n⟩) (hq : s.port = []) :
    core.run (n + 1) s = exec (decodeCmd w) { s with pending := some ⟨w, 0⟩ } := by
  induction n generalizing s with
  | zero =>
    obtain ⟨t, ht⟩ := exec_next (decodeCmd w) s
    rw [← hp]
    exact (core_run_succ 0 ((step_completion hp).trans ht)).trans ht.symm
  | succ n ih =>
    have htook : s.took [] = { s with pending := some ⟨w, n⟩ } := by rw [State.took_of_succ hp, ← hq]
    have hstep : step s = .next { s with pending := some ⟨w, n⟩ } := htook ▸ step_idle (by simp [hp]) hq
    exact (core_run_succ (n + 1) hstep).trans (ih rfl hq)

/-! Reads while BUSY = 1. -/

/-- The two registers that show their value while BUSY = 1, ID and STATUS, hold no result (R245). -/
theorem readReply_congr_of_busy {a b : State} (ha : a.busy = true) (hb : b.busy = true) (hcfg : a.cfg = b.cfg)
    (hstatus : a.status = b.status) (off : Offset) (size : Nat) : a.readReply off size = b.readReply off size := by
  cases htarget : target a.cfg off size with
  | none => rw [readReply_of_none htarget, readReply_of_none (hcfg ▸ htarget)]
  | some r =>
    rw [readReply_of_some htarget, readReply_of_some (hcfg ▸ htarget), ha, hb]
    cases r with
    | id => rfl
    | status => exact congrArg (Reply.read · .okay) hstatus
    | _ => rfl

/-! OVR and acceptance. -/

theorem decodeTxn_eq_wr {x : BusTxn} {off : Offset} {size : Nat} {v : Word} (h : decodeTxn x = .wr off size v) :
    x.desc = 1#1 ++ off ∧ x.size = size := by
  obtain ⟨d, n, data⟩ := x
  obtain ⟨write, off', rfl⟩ : ∃ write off', d = BitVec.ofBool write ++ off' := ⟨_, _, desc_eq d⟩
  rw [decodeTxn_append] at h
  cases write <;> cases h
  exact ⟨rfl, rfl⟩

/-- A 4-byte write to CMD with no command in flight is one that the core accepts (R184, R243). -/
theorem acceptsNext_of_cmd {x : BusTxn} {rest : List PortEvent} {off : Offset} {size : Nat} {v : Word}
    (hbusy : s.busy = false) (hq : s.port = .txn x :: rest) (hx : decodeTxn x = .wr off size v)
    (hr : target s.cfg off size = some .cmd) : s.acceptsNext = true := by
  obtain ⟨hdesc, hsize⟩ := decodeTxn_eq_wr hx
  obtain ⟨hsize4, hoff⟩ := target_offset hr
  have hoff4 : off = 4#16 := BitVec.eq_of_toNat_eq hoff
  have hcmd : x.desc = 0x10004#17 := by rw [hdesc, hoff4]; rfl
  simp [State.acceptsNext, hbusy, hq, hcmd, hsize, hsize4]

/-- A transaction clears OVR only as a write to CMD that is accepted (R34, R246). -/
theorem exec_txn_ovr {x : BusTxn} (h : exec (decodeTxn x) s = .next t) (hset : s.ovr = true) :
    t.ovr = true ∨
      s.busy = false ∧ ∃ off size v, decodeTxn x = .wr off size v ∧ target s.cfg off size = some .cmd := by
  rcases exec_txn_eq x s t h with ⟨_, rfl⟩ | ⟨off, size, v, r, hx, hr, ⟨_, rfl⟩ | ⟨hbusy, rfl⟩⟩
  · exact .inl hset
  · exact .inl rfl
  · rcases writeReg_eq s r v with ⟨rfl, _⟩ | ⟨_, _, e⟩ | ⟨_, _, e⟩ | ⟨_, _, e⟩ | e
    · exact .inr ⟨hbusy, off, size, v, hx, hr⟩
    all_goals exact .inl (by rw [e]; exact hset)

/-! The reset input and the reset state (R240). -/

theorem step_reset {rest : List PortEvent} (hp : ∀ w, s.pending ≠ some ⟨w, 0⟩) (hq : s.port = .rst :: rest) :
    step s = .next { s with port := rest }.hardReset := by
  rcases step_cases s with ⟨w, hw, _⟩ | ⟨_, ⟨hq', _⟩ | ⟨x, rest', hq', _⟩ | ⟨rest', hq', h⟩⟩
  · exact absurd hw (hp w)
  · cases hq.symm.trans hq'
  · cases hq.symm.trans hq'
  · cases hq.symm.trans hq'
    exact h

/-- Nothing of a command that completes just before reset is left after it. -/
theorem run_reset {rest : List PortEvent} (hq : s.port = .rst :: rest) :
    core.run (if ∃ w, s.pending = some ⟨w, 0⟩ then 2 else 1) s = .next { s with port := rest }.hardReset := by
  split
  next hdue =>
    obtain ⟨w, hw⟩ := hdue
    obtain ⟨t, ht⟩ := exec_next (decodeCmd w) s
    obtain ⟨hcfg, _, hlat, hport, hreplies, hp, _⟩ := exec_cmd_frame w s t ht
    have hreset : step t = .next { t with port := rest }.hardReset := step_reset (by simp [hp]) (hport.trans hq)
    have hsame : { t with port := rest }.hardReset = { s with port := rest }.hardReset := by
      simp only [State.hardReset, hcfg, hlat, hreplies]
    rw [core_run_succ 1 ((step_completion hw).trans ht), core_run_succ 0 hreset, hsame]
    rfl
  next hnone => exact core_run_succ 0 (step_reset (fun w hw => hnone ⟨w, hw⟩) hq)

/-- In the reset state only the constants of the core do not read 0 (R240). -/
theorem regValue_resetOf (cfg : Config) {r : Reg} (hid : r ≠ .id) (hcap : r ≠ .cap) (hmbcap : r ≠ .mbcap) :
    (State.resetOf cfg).regValue r = 0 := by
  cases r with
  | id => exact absurd rfl hid
  | cap => exact absurd rfl hcap
  | mbcap => exact absurd rfl hmbcap
  | status => exact (show (State.resetOf cfg).status = State.reset.status from rfl).trans (by decide)
  | ksidxLo | ksidxHi | mlenLo | mlenHi => exact BitVec.extractLsb'_zero
  | outbuf j => rw [State.regValue]; exact if_neg (Nat.not_lt_zero j)
  | cmd | wordsOut | tag | key | iv | msgbuf => rfl

/-- Every register of the map lies in the 64 KiB window (R50, R51). -/
theorem offset_lt_of_inMap {cfg : Config} {r : Reg} (hok : cfg.ok = true) (hmap : r.inMap cfg = true) :
    r.offset < 65536 := by
  obtain ⟨_, hcap, _, hmsg, _⟩ := (config_ok_iff cfg).mp hok
  cases r with
  | msgbuf m => have hm : m < cfg.msgbufWords := of_decide_eq_true hmap; simp only [Reg.offset]; omega
  | outbuf j => have hj : j < cfg.capacityWords := of_decide_eq_true hmap; simp only [Reg.offset]; omega
  | key n | iv n => simp only [Reg.offset]; omega
  | _ => decide

theorem target_offset_of_inMap {cfg : Config} {r : Reg} (hok : cfg.ok = true) (hmap : r.inMap cfg = true) :
    target cfg (BitVec.ofNat 16 r.offset) 4 = some r := by
  have hoff : (BitVec.ofNat 16 r.offset).toNat = r.offset :=
    (BitVec.toNat_ofNat _ _).trans (Nat.mod_eq_of_lt (offset_lt_of_inMap hok hmap))
  exact (target_eq_some_iff_inMap hok _ 4 r).mpr ⟨rfl, hmap, hoff.symm⟩

end

end Sys2Proof.Machine
end

section
/-! The reset state, and what waits for the completion of a command. -/

namespace Sys2Proof.Machine

/-- Settles O17: the LAT passes over a frozen state, and the step after it completes the command. -/
theorem commandInFlightCompletesOnFrozenState : Obligations.CommandInFlightCompletesOnFrozenState := by
  intro s w n hp hr
  obtain ⟨t, hrun, hfrozen⟩ := run_frozenTo hp hr
  obtain ⟨u, hu⟩ := exec_next (decodeCmd w) t
  have hstep : step t = .next u := (step_completion hfrozen.pending).trans hu
  obtain ⟨_, _, _, _, _, hdone, _⟩ := exec_cmd_frame w t u hu
  exact ⟨t, u, hrun, hfrozen.1, hfrozen.2, core_run_snoc n hrun hstep, hu, hdone⟩

/-- Settles O18: either run comes to the command's meaning on one state, in which no LAT is left. -/
theorem resultDoesNotDependOnLatency : Obligations.ResultDoesNotDependOnLatency := by
  intro s w m n hq
  have hrun (k : Nat) : core.run (k + 1) { s with pending := some ⟨w, k⟩ } =
      exec (decodeCmd w) { s with pending := some ⟨w, 0⟩ } :=
    run_of_quiet_port (s := { s with pending := some ⟨w, k⟩ }) rfl hq
  exact (hrun m).trans (hrun n).symm

/-- Settles O9, by the four things a step can be. -/
theorem ovrFallsOnlyOnAcceptance : Obligations.OvrFallsOnlyOnAcceptance := by
  intro s t h hset hfell
  rcases step_cases s with ⟨w, _, hs⟩ | ⟨hp, ⟨_, hs⟩ | ⟨x, rest, hq, hs⟩ | ⟨rest, hq, hs⟩⟩
  · obtain ⟨_, hovr, _⟩ := exec_cmd_frame w s t (hs ▸ h)
    cases hfell.symm.trans (hovr.trans hset)
  · cases hs.symm.trans h
    cases hfell.symm.trans hset
  · rcases exec_txn_ovr (s := s.took rest) (hs ▸ h) hset with hovr | ⟨hbusy, off, size, v, hx, hr⟩
    · cases hfell.symm.trans hovr
    · exact .inl (acceptsNext_of_cmd (s.took_busy rest ▸ hbusy) hq hx hr)
  · exact .inr (resetsNext_of hp hq)

/-- Settles O11: the reply to a busy core's read is a function of the parameters and of STATUS. -/
theorem busyReadsShowNoResult : Obligations.BusyReadsShowNoResult := by
  intro a b ta tb off size ha hb hcfg hovr hctx herr hta htb
  have hstatus : a.status = b.status := by rw [State.status, State.status, herr, hctx, hovr, ha, hb]
  rw [exec_rd_reply hta, exec_rd_reply htb, readReply_congr_of_busy ha hb hcfg hstatus]

/-- Settles O16: reset by whether a completion is due, and the reset state's registers by their kind. -/
theorem resetInputClearsEverything : Obligations.ResetInputClearsEverything := by
  refine ⟨fun s rest hq => run_reset hq, fun cfg r hok hmap => ?_⟩
  have hread : (State.resetOf cfg).readReply (BitVec.ofNat 16 r.offset) 4 =
      .read ((State.resetOf cfg).regValue r) .okay := readReply_of_some (target_offset_of_inMap hok hmap)
  refine congrArg (Host.Outcome.next <| (State.resetOf cfg).answer ·) (hread.trans ?_)
  cases r with
  | id | cap | mbcap => rfl
  | _ => exact congrArg (Reply.read · .okay) (regValue_resetOf cfg (by nofun) (by nofun) (by nofun))

/-- Settles O50: the write is accepted, the LAT passes at a quiet port, and the wipe leaves nothing of the state. -/
theorem destroyLeavesTheResetState : Obligations.DestroyLeavesTheResetState := by
  intro s hp hq
  have haccept : step s = .next ({ s with port := [] }.wrote (.cmd, 0x30000000#32)) := step_wrEvent hp hq rfl
  exact (core_run_succ (s.latencies.headD 0 + 1) haccept).trans
    (run_of_quiet_port (s := { s with port := [] }.wrote (.cmd, 0x30000000#32)) rfl rfl)

/-- Settles O23: the reset state has every size of its parameters, all else cleared, and no live context. -/
theorem resetStateIsSafe : Obligations.ResetStateIsSafe := fun _ hok =>
  ⟨State.Inv.resetOf hok, nofun, nofun⟩

end Sys2Proof.Machine
end
